-- ==== Sys2Proof/Word.lean ====
section
/-! DEFINITION. Widths: the 32-bit word of `ACC` and of a data memory cell, the byte of the program store (R5, R30, R34). -/

namespace Sys2Proof

/-- The accumulator, a data memory cell and an operand's container: 32 bits, unsigned (R5, R11, R30; C2). -/
abbrev Word := BitVec 32

/-- One unit of the program store (R22, R34). -/
abbrev Byte := BitVec 8

end Sys2Proof
end

