-- ==== Sys2Proof/Config.lean ====
section
/-! DEFINITION. The parameters the source fixes (R5). The open parameter `PROG` is a field of `State` (notes/assumptions/1.md);
`PC_WIDTH` is open and the program counter is an unbounded natural (D3, notes/assumptions/2.md). The spec has no free value. -/

namespace Sys2Proof.Config

/-- MEM_CELLS: the number of data memory cells, addresses 0 to 65535 (R5, R30). -/
def memCells : Nat := 65536

/-- The length of the longest instruction in bytes (R5: 1, 3 or 5 bytes). -/
def maxInstrLength : Nat := 5

end Sys2Proof.Config
end

