-- ==== Sys2Proof/Syntax.lean ====
section
/-! DEFINITION. The instruction set: four operations, no modifiers (R1, R58). An instruction is "an Opcode plus an optional
32-bit unsigned Operand" (R9); the operand's container is 32 bits wide and its encoded field is narrower (C2,
notes/assumptions/8.md), so that an ill-formed instruction can be written down and refused (Sys2Proof/WellFormed.lean). -/

namespace Sys2Proof

/-- The four opcodes as names; their 7-bit values are `Opcode.value` in Sys2Proof/Decode.lean (R58). -/
inductive Opcode where
  | load
  | read
  | write
  | bswap
  deriving DecidableEq, Repr

/-- One constructor per row of spec/opcode_table.json. -/
inductive Instr where
  /-- `LOAD imm`: load a constant into the accumulator (R100). -/
  | load (imm : Word)
  /-- `READ`: load the accumulator from the cell whose address it holds (R105). -/
  | read
  /-- `WRITE addr`: store the accumulator into the cell named by the operand (R106). -/
  | write (addr : Word)
  /-- `BSWAP`: reverse the four bytes of the accumulator (R115). -/
  | bswap
  deriving DecidableEq, Repr

/-- The opcode of an instruction. -/
def Instr.opcode : Instr → Opcode
  | .load _ => .load
  | .read => .read
  | .write _ => .write
  | .bswap => .bswap

end Sys2Proof
end

