-- ==== Sys2Proof/WellFormed.lean ====
section
/-! DEFINITION. Which instructions have an encoding: the operand fits its encoded field, 31 bits for `LOAD` and 13 bits for
`WRITE` (the structural range, R9, R56, R57). The narrower declared range of the assembler is in
Sys2Proof/Machine/Assembler.lean (R67). -/

namespace Sys2Proof

/-- A `LOAD` operand lies in 0 to 2^31 - 1 (R57). -/
def loadOperandFits (imm : Word) : Bool := decide (imm.toNat < 2 ^ 31)

/-- A `WRITE` operand lies in 0 to 8191 (R56). -/
def writeOperandFits (addr : Word) : Bool := decide (addr.toNat < 2 ^ 13)

/-- The instruction's operand is in its structural range. -/
def Instr.wellFormed : Instr → Bool
  | .load imm => loadOperandFits imm
  | .read => true
  | .write addr => writeOperandFits addr
  | .bswap => true

end Sys2Proof
end

