-- ==== Sys2Proof/Decode.lean ====
section
/-! DEFINITION. The Decoder (R50 to R63), and after it the encoder that packs a well-formed instruction (R50 to R54, the formulas
of R64 to R66 without the assembler's range test, which is in Sys2Proof/Machine/Assembler.lean). Pure functions: no side
effect (R63). -/

namespace Sys2Proof

/-! ## Notation of the spec (R8, R36) -/

/-- `w[hi:lo]`, the unsigned integer made of bits hi down to lo of w: `(w >> lo) & (2^(hi-lo+1) - 1)` (R8). -/
def bitField (w hi lo : Nat) : Nat := (w >>> lo) % 2 ^ (hi - lo + 1)

/-- A sequence of bytes read as one little-endian unsigned integer: the byte at the lowest offset is the least significant (R36). -/
def leWord : List Byte → Nat
  | [] => 0
  | b :: bs => b.toNat + 2 ^ 8 * leWord bs

/-- `ProgWord(c, n)`: the n program bytes from offset c, little-endian (R36). The spec defines it only for
`c + n <= PROG_LEN`, which the Decoder checks first. -/
def progWord (prog : List Byte) (c n : Nat) : Nat := leWord ((prog.drop c).take n)

/-- The low 7 bits of a byte: the opcode field of a first byte (R50, R58). -/
def low7 (b : Byte) : BitVec 7 := b.extractLsb' 0 7

/-! ## The opcode map (R58) and the lengths (R55) -/

/-- The 7-bit value of each opcode (R58). -/
def Opcode.value : Opcode → BitVec 7
  | .load => 57
  | .read => 102
  | .write => 112
  | .bswap => 5

/-- The opcode a 7-bit value selects; none for the 124 illegal values (R58, R59). -/
def opcodeOf (v : BitVec 7) : Option Opcode :=
  if v = 57 then some .load
  else if v = 102 then some .read
  else if v = 112 then some .write
  else if v = 5 then some .bswap
  else none

/-- The length in bytes, a function of the opcode alone (R55). -/
def Opcode.length : Opcode → Nat
  | .load => 5
  | .read => 1
  | .write => 3
  | .bswap => 1

/-- The length in bytes of an instruction (R55). -/
def Instr.length (i : Instr) : Nat := i.opcode.length

/-! ## Operand extraction (R56, R57) -/

/-- `imm31 = w[37:7]` of the 40-bit word, zero-extended to the 32-bit container (R57). -/
def loadOperand (w : Nat) : Word := BitVec.ofNat 32 (bitField w 37 7)

/-- `addr13 = w[19:7]` of the 24-bit word, zero-extended to the 32-bit container (R56, D4). -/
def writeOperand (w : Nat) : Word := BitVec.ofNat 32 (bitField w 19 7)

/-! ## The Decoder (R61, R62) -/

/-- What the Decoder answers at a cursor. -/
inductive Decoded where
  /-- A typed instruction and the next cursor position (R61). -/
  | instr (i : Instr) (next : Nat)
  /-- The fault `UnknownOpcode` with the raw low-7-bit value and the cursor (R121). -/
  | unknownOpcode (raw7 : BitVec 7) (cursor : Nat)
  /-- The fault `TruncatedInstruction` with the opcode and the cursor (R122). -/
  | truncatedInstruction (opcode : BitVec 7) (cursor : Nat)
  /-- The cursor is at or beyond `PROG_LEN`: outside the Decoder's precondition (R61, U9, notes/assumptions/7.md). -/
  | outsideProgram (cursor : Nat)
  deriving DecidableEq, Repr

/-- Answer the instruction when all its bytes are available, that is `c + n <= PROG_LEN`; else `TruncatedInstruction` (R62). -/
def requireBytes (prog : List Byte) (c : Nat) (op : Opcode) (i : Instr) : Decoded :=
  if c + op.length > prog.length then .truncatedInstruction op.value c else .instr i (c + op.length)

/-- `decode(c)` (R61): the opcode is identified from the first byte, only then are the available bytes counted (R62). -/
def decode (prog : List Byte) (c : Nat) : Decoded :=
  match prog[c]? with
  | none => .outsideProgram c
  | some b =>
    match opcodeOf (low7 b) with
    | none => .unknownOpcode (low7 b) c
    | some .load => requireBytes prog c .load (.load (loadOperand (progWord prog c 5)))
    | some .read => .instr .read (c + 1)
    | some .write => requireBytes prog c .write (.write (writeOperand (progWord prog c 3)))
    | some .bswap => .instr .bswap (c + 1)

/-! ## The encoder -/

/-- The n low bytes of a word, least significant first (R64, R65: `w[7:0], w[15:8], ...`). -/
def leBytes : Nat → Nat → List Byte
  | 0, _ => []
  | n + 1, w => BitVec.ofNat 8 w :: leBytes n (w / 2 ^ 8)

/-- `opcode | (operand << 7)` (R64, R65). -/
def packWord (op : Opcode) (operand : Nat) : Nat := op.value.toNat ||| (operand <<< 7)

/-- The bytes of a well-formed instruction, every ignored bit 0 (R60, R64 to R66). Of an ill-formed instruction the operand's
high bits are cut off (notes/assumptions/21.md). -/
def encode : Instr → List Byte
  | .load imm => leBytes 5 (packWord .load imm.toNat)
  | .read => leBytes 1 (packWord .read 0)
  | .write addr => leBytes 3 (packWord .write addr.toNat)
  | .bswap => leBytes 1 (packWord .bswap 0)

/-- The concatenation of the encodings in program order, nothing between, before or after them (R34, R72). -/
def encodeAll : List Instr → List Byte
  | [] => []
  | i :: is => encode i ++ encodeAll is

/-! ## The host's question about one row of the opcode table -/

/-- The bytes of a table word: its nbits low bits, every bit above them 0, laid out little-endian over the longest
instruction's 5 bytes. -/
def tableBytes (nbits w : Nat) : List Byte := leBytes Config.maxInstrLength (w % 2 ^ nbits)

/-- The instruction the Decoder reads from a table word placed at cursor 0. -/
def decodeTableWord (nbits w : Nat) : Option Instr :=
  match decode (tableBytes nbits w) 0 with
  | .instr i _ => some i
  | .unknownOpcode _ _ => none
  | .truncatedInstruction _ _ => none
  | .outsideProgram _ => none

end Sys2Proof
end

