-- ==== Sys2Proof/Machine/State.lean ====
section
/-! DEFINITION. The machine's state (R10): `ACC`, `PC`, `MEM`, `STATUS`, `FAULT`, and the run's constant `PROG` (R24,
notes/assumptions/1.md). Plain data. -/

namespace Sys2Proof.Machine

/-- `STATUS` (R16). -/
inductive Status where
  /-- The run is in progress; entered at reset. -/
  | running
  /-- The run ended normally; left only by reset. -/
  | halted
  /-- The run ended with a fault; left only by reset. -/
  | faulted
  deriving DecidableEq, Repr

/-- The three faults of the hardware with the information each records (R17, R120, D7). They are held in `State.fault`: raising one
is a next state with `STATUS = FAULTED` (R126, notes/assumptions/4.md), so no step answers `Host.Outcome.fault`. -/
inductive Fault where
  /-- Raised by the step when the Decoder finds a first byte whose low 7 bits are none of 5, 57, 102, 112 (R121). Safe: it is the
  spec's own fault, entered as R126 says. -/
  | unknownOpcode (raw7 : BitVec 7) (cursor : Nat)
  /-- Raised by the step when the Decoder finds a `LOAD` with fewer than 5 bytes left or a `WRITE` with fewer than 3 (R122). Safe:
  the spec's own fault, entered as R126 says. -/
  | truncatedInstruction (opcode : BitVec 7) (cursor : Nat)
  /-- Raised by `READ` (and by a hand-built `WRITE`, C3) when the data address is above 65535 (R123). Safe: the spec's own fault,
  entered as R126 says. -/
  | memoryOutOfRange (address : Word)
  deriving DecidableEq, Repr

/-- Why a step gives no meaning. -/
inductive Refusal where
  /-- For an instruction whose arm has no meaning yet; raised by no arm of exec (all four have one). Safe: the model stops. -/
  | notModelled (mnemonic : String)
  /-- The Decoder was called at or beyond `PROG_LEN`, which the spec puts outside its precondition (U9: refuse). Raised by the
  step, which tests `PC < PROG_LEN` first, so never in fact. Safe: the model stops. -/
  | decoderOutsideProgram (cursor : Nat)
  deriving DecidableEq, Repr

/-- The data memory: the cells that are not 0 as (cell address, value) pairs (R30, R37; notes/assumptions/3.md). -/
abbrev Memory := List (Nat × Word)

/-- What a cell that is not listed reads as: "Every cell is 0 after reset" (R15, R32). -/
def Memory.unlisted : Word := 0

/-- The canonical form from address lo up: addresses strictly rising, below 65536, no listed cell equal to an unlisted one. -/
def Memory.wfFrom (lo : Nat) : Memory → Bool
  | [] => true
  | (a, v) :: m =>
    decide (lo ≤ a) && decide (a < Config.memCells) && v != Memory.unlisted && Memory.wfFrom (a + 1) m

/-- The canonical form of the data memory: equal memories are equal lists. -/
def Memory.wf (m : Memory) : Bool := Memory.wfFrom 0 m

/-- The machine's state. -/
structure State where
  /-- `ACC`, the only register (R11). -/
  acc : Word
  /-- `PC`, the byte offset in `PROG` of the next instruction to decode (R13, D3). -/
  pc : Nat
  /-- `MEM` (R15, R30). -/
  mem : Memory
  /-- `STATUS` (R16). -/
  status : Status
  /-- `FAULT`; none while running or halted (R17). -/
  fault : Option Fault
  /-- `PROG`, constant during a run; `PROG_LEN` is its length (R24, R34, R35). -/
  prog : List Byte
  deriving DecidableEq, Repr

/-- The machine right after reset (R23, R150), with no program in the store (notes/assumptions/1.md). -/
def State.reset : State where
  acc := 0
  pc := 0
  mem := []
  status := .running
  fault := none
  prog := []

end Sys2Proof.Machine
end

