-- ==== Sys2Proof/Machine/Ops.lean ====
section
/-! DEFINITION. The named operations over memory, registers and the run's outcome, fault entry among them. -/

namespace Sys2Proof.Machine

/-! ## The data memory (R30 to R33) -/

/-- The value of a cell. -/
def Memory.read : Memory → Nat → Word
  | [], _ => Memory.unlisted
  | (k, v) :: m, a => if k = a then v else Memory.read m a

/-- The memory without an entry for a cell. -/
def Memory.clearCell : Memory → Nat → Memory
  | [], _ => []
  | (k, v) :: m, a => if k = a then Memory.clearCell m a else (k, v) :: Memory.clearCell m a

/-- The memory with one more entry, before the first higher address. -/
def Memory.putCell : Memory → Nat → Word → Memory
  | [], a, v => [(a, v)]
  | (k, w) :: m, a, v => if a < k then (a, v) :: (k, w) :: m else (k, w) :: Memory.putCell m a v

/-- `MEM[a] <- v`, in canonical form: writing 0 removes the entry (R33). -/
def Memory.write (m : Memory) (a : Nat) (v : Word) : Memory :=
  if v = Memory.unlisted then m.clearCell a else (m.clearCell a).putCell a v

/-- `MemRead(a, 1)` (R32). Its callers check the range first. -/
def State.memRead (s : State) (a : Word) : Word := s.mem.read a.toNat

/-- `MemWrite(a, 1, v)` (R33). Its callers check the range first. -/
def State.memWrite (s : State) (a : Word) (v : Word) : State := { s with mem := s.mem.write a.toNat v }

/-! ## The accumulator and the program counter (R11, R13) -/

/-- `ACC <- v`: all 32 bits are replaced (R12). -/
def State.setAcc (s : State) (v : Word) : State := { s with acc := v }

/-- `PC <- next`, the advance past the instruction just decoded; the only way `PC` changes (R14, R81, R90). -/
def State.advance (s : State) (next : Nat) : State := { s with pc := next }

/-! ## The end of a run (R16) -/

/-- `STATUS <- HALTED`, the normal end: `FAULT`, `ACC`, `PC`, `MEM` keep their values (R84). -/
def State.halt (s : State) : State := { s with status := .halted }

/-- `raise F(info)`, taking a fault: `FAULT` and `STATUS` are written and nothing else (R126). There is no return from a fault
but a new run, `State.startRun` (R128). -/
def State.raise (s : State) (f : Fault) : State := { s with fault := some f, status := .faulted }

/-! ## The start of a run (R150, R153) -/

/-- Reset with a program in place: the host supplies `PROG` and a run starts from the zero state (R150, R153, D9). Nothing of an
earlier run survives (R24, R151). -/
def State.startRun (prog : List Byte) : State := { State.reset with prog := prog }

/-! ## Byte reversal (R8, R115) -/

/-- `bswap32(a) = {a[7:0], a[15:8], a[23:16], a[31:24]}` (R115). -/
def bswap32 (a : Word) : Word :=
  a.extractLsb' 0 8 ++ a.extractLsb' 8 8 ++ a.extractLsb' 16 8 ++ a.extractLsb' 24 8

/-! ## Placing bytes in the program store from outside the machine -/

/-- A program store in which the given bytes stand at offset c; a gap below c is filled with zero bytes. -/
def placeBytes (prog : List Byte) (c : Nat) (bytes : List Byte) : List Byte :=
  prog.take c ++ List.replicate (c - prog.length) 0 ++ bytes ++ prog.drop (c + bytes.length)

end Sys2Proof.Machine
end

