-- ==== Sys2Proof/Machine/Operands.lean ====
section
/-! DEFINITION. Operand forms: the two addressing modes (R107) and the one check on a data address (R31, R41). The machine has no
flags (R19), so there is no file of flag computations. -/

namespace Sys2Proof.Machine

/-- Accumulator-indirect (`READ`): the address is all 32 bits of `ACC`, unsigned (R105, R107). -/
def accIndirect (s : State) : Word := s.acc

/-- Absolute (`WRITE`): the address is the zero-extended operand, not scaled, not offset (R56, R106, R107). -/
def absolute (addr : Word) : Word := addr

/-- The data address is one of 0 to 65535; an address outside is never wrapped or clipped (R31). -/
def addressInRange (a : Word) : Bool := decide (a.toNat ≤ 65535)

/-- The effective data address of an instruction, where it has one (R107). -/
def effectiveAddress : Instr → State → Option Word
  | .load _, _ => none
  | .read, s => some (accIndirect s)
  | .write addr, _ => some (absolute addr)
  | .bswap, _ => none

end Sys2Proof.Machine
end

