-- ==== Sys2Proof/Machine/ByteSwap.lean ====
section
/-! DEFINITION. `BSWAP` (R115): the effect applied after the advance (R81). -/

namespace Sys2Proof.Machine

/-- `BSWAP`: `ACC <- bswap32(ACC)` (R115). -/
def execBswap (s : State) : Host.Outcome State Fault Refusal := .next (s.setAcc (bswap32 s.acc))

end Sys2Proof.Machine
end

