-- ==== Sys2Proof/Machine/DataMemory.lean ====
section
/-! DEFINITION. `READ` and `WRITE` (R105, R106): the effects applied after the advance (R81). -/

namespace Sys2Proof.Machine

/-- `READ`: `ACC <- MEM[ACC]`, or `MemoryOutOfRange(ACC)` when `ACC` is above 65535 (R105). -/
def execRead (s : State) : Host.Outcome State Fault Refusal :=
  if addressInRange (accIndirect s) then .next (s.setAcc (s.memRead (accIndirect s)))
  else .next (s.raise (.memoryOutOfRange (accIndirect s)))

/-- `WRITE addr`: `MEM[addr] <- ACC`. The range test is made as the spec states it; no decoded operand fails it (R106, C3). -/
def execWrite (addr : Word) (s : State) : Host.Outcome State Fault Refusal :=
  if addressInRange (absolute addr) then .next (s.memWrite (absolute addr) s.acc)
  else .next (s.raise (.memoryOutOfRange (absolute addr)))

end Sys2Proof.Machine
end

