-- ==== Sys2Proof/Machine/Load.lean ====
section
/-! DEFINITION. `LOAD` (R100): the effect applied after the advance (R81). -/

namespace Sys2Proof.Machine

/-- `LOAD imm`: `ACC <- zext_32(imm31)`; the Decoder has extended the operand (R57, R100). -/
def execLoad (imm : Word) (s : State) : Host.Outcome State Fault Refusal := .next (s.setAcc imm)

end Sys2Proof.Machine
end

