-- ==== Sys2Proof/Machine/Dispatch.lean ====
section
/-! DEFINITION. Dispatch: one effect per opcode, the four being the whole list (R83). The state given to an arm is the one after
the advance (R81, R82). -/

namespace Sys2Proof.Machine

def exec (i : Instr) (s : State) : Host.Outcome State Fault Refusal :=
  match i with
  | .load imm => Sys2Proof.Machine.execLoad imm s
  | .read => Sys2Proof.Machine.execRead s
  | .write addr => Sys2Proof.Machine.execWrite addr s
  | .bswap => Sys2Proof.Machine.execBswap s

end Sys2Proof.Machine
end

