-- ==== Sys2Proof/Machine/Loop.lean ====
section
/-! DEFINITION. One turn of the run loop (R80, R81), and the placing of a table word where the next turn fetches. -/

namespace Sys2Proof.Machine

/-- The turn of a running machine: at the end of the program the run halts (R84); else decode at `PC`, raise a decode fault with
`PC` unchanged, or advance `PC` first and then apply the instruction (R81, R82). -/
def runningTurn (s : State) : Host.Outcome State Fault Refusal :=
  if s.prog.length ≤ s.pc then .next s.halt
  else
    match decode s.prog s.pc with
    | .instr i next => exec i (s.advance next)
    | .unknownOpcode raw7 cursor => .next (s.raise (.unknownOpcode raw7 cursor))
    | .truncatedInstruction opcode cursor => .next (s.raise (.truncatedInstruction opcode cursor))
    | .outsideProgram cursor => .refused (.decoderOutsideProgram cursor)

/-- One turn of the loop of R80. In `HALTED` and `FAULTED` no state changes (R16, notes/assumptions/5.md). -/
def loopTurn (s : State) : Host.Outcome State Fault Refusal :=
  match s.status with
  | .running => runningTurn s
  | .halted => .next s
  | .faulted => .next s

/-- A table word placed at `PC` in the program store of a running machine with no fault (notes/assumptions/18.md). -/
def placeTableWord (s : State) (nbits w : Nat) : State :=
  { s with prog := placeBytes s.prog s.pc (tableBytes nbits w), status := .running, fault := none }

end Sys2Proof.Machine
end

