-- ==== Sys2Proof/Machine/Step.lean ====
section
/-! DEFINITION. The machine's step, and where the host's row check places an instruction (Sys2Proof/Machine/Loop.lean). -/

namespace Sys2Proof.Machine

/-- One turn of the loop of R80. -/
def step (s : State) : Host.Outcome State Fault Refusal := loopTurn s

/-- The state in which a table word stands at `PC` and a run is in progress, so that the very next step decodes and applies it
(notes/assumptions/18.md). -/
def State.withFetchWord (s : State) (nbits w : Nat) : State := placeTableWord s nbits w

end Sys2Proof.Machine
end

