-- ==== Sys2Proof/Machine/Assembler.lean ====
section
/-! DEFINITION. The toolchain reference: the Range Validator and the Encoder over assembly rows (R64 to R72). Not part of the
hardware; the machine never calls it (R67). A row is given as its two fields, the parsing of text being out of scope (R4, R70;
notes/assumptions/11.md). -/

namespace Sys2Proof.Machine

/-- One row of an assembly listing (R70): the mnemonic's characters and the operand, none for an empty field. -/
structure Row where
  opcode : List Char
  operand : Option Int
  deriving DecidableEq, Repr

/-- Toolchain errors, which the hardware never raises (R124). -/
inductive ToolError where
  /-- A mnemonic outside the four (R67, R124). -/
  | unknownOpcode (mnemonic : List Char)
  /-- The operand is outside the declared range; opcode and offending value are reported (R64, R65, R67). -/
  | operandOutOfRange (opcode : Opcode) (value : Int)
  /-- An operand is present where the opcode takes none, or absent where it takes one: refused (R67, D12). -/
  | operandPresence (opcode : Opcode)
  deriving DecidableEq, Repr

/-- The mnemonic's opcode, letters compared without regard to case (R70). -/
def mnemonicOpcode (text : List Char) : Option Opcode :=
  let up := text.map Char.toUpper
  if up = ['L', 'O', 'A', 'D'] then some .load
  else if up = ['R', 'E', 'A', 'D'] then some .read
  else if up = ['W', 'R', 'I', 'T', 'E'] then some .write
  else if up = ['B', 'S', 'W', 'A', 'P'] then some .bswap
  else none

/-- The first value above the declared range of an opcode's operand: 2^31 for `LOAD`, 4096 for `WRITE` (R64, R65). -/
def declaredBound : Opcode → Int
  | .load => 2 ^ 31
  | .read => 0
  | .write => 4096
  | .bswap => 0

/-- The Range Validator: the operand, if it lies in the declared range (R67). -/
def validateOperand (op : Opcode) (v : Int) : Except ToolError Word :=
  if 0 ≤ v ∧ v < declaredBound op then .ok (BitVec.ofNat 32 v.toNat) else .error (.operandOutOfRange op v)

/-- The typed instruction of an opcode and an optional operand, validated (R64 to R67). -/
def checkInstr : Opcode → Option Int → Except ToolError Instr
  | .load, some v => (validateOperand .load v).map Instr.load
  | .load, none => .error (.operandPresence .load)
  | .read, none => .ok .read
  | .read, some _ => .error (.operandPresence .read)
  | .write, some v => (validateOperand .write v).map Instr.write
  | .write, none => .error (.operandPresence .write)
  | .bswap, none => .ok .bswap
  | .bswap, some _ => .error (.operandPresence .bswap)

/-- The Encoder's contract: validate, then encode; no bytes are produced for a value out of range (R64 to R67). -/
def encodeChecked (op : Opcode) (operand : Option Int) : Except ToolError (List Byte) :=
  (checkInstr op operand).map encode

/-- The typed instruction of a row. -/
def rowInstr (r : Row) : Except ToolError Instr :=
  match mnemonicOpcode r.opcode with
  | none => .error (.unknownOpcode r.opcode)
  | some op => checkInstr op r.operand

/-- The bytes of a row. -/
def encodeRow (r : Row) : Except ToolError (List Byte) := (rowInstr r).map encode

/-- The program of a listing: each row validated and encoded in order, the whole translation aborted at the first invalid row (R72). -/
def assemble : List Row → Except ToolError (List Byte)
  | [] => .ok []
  | r :: rs =>
    match encodeRow r with
    | .error e => .error e
    | .ok bytes =>
      match assemble rs with
      | .error e => .error e
      | .ok rest => .ok (bytes ++ rest)

/-- The operand a typed instruction is written with in a listing. -/
def sourceOperand : Instr → Option Int
  | .load imm => some imm.toNat
  | .read => none
  | .write addr => some addr.toNat
  | .bswap => none

/-- The non-canonical encodings of one instruction, which no assembler emits: a one-byte form with bit 7 set, a five-byte form
with a fifth byte of 0x40 or above, a three-byte form with a third byte of 0x10 or above or with bit 19 set (R68). -/
def NonCanonical : List Byte → Prop
  | [b0] => 0x80 ≤ b0.toNat
  | [_, _, b2] => 0x10 ≤ b2.toNat ∨ b2.getLsbD 3 = true
  | [_, _, _, _, b4] => 0x40 ≤ b4.toNat
  | _ => False

end Sys2Proof.Machine
end

