-- ==== Sys2Proof/Machine/HostPort.lean ====
section
/-! DEFINITION. What the host may read: the status and fault record, the final `ACC` and `PC` of a normally ended run (R157, D13),
and the memory snapshot (R45, R46). Pure functions of the state: a read never changes it (R46). -/

namespace Sys2Proof.Machine

/-- The numeric code of `FAULT` (R17, R120, D6). -/
def faultCode : Option Fault → Nat
  | none => 0
  | some (.unknownOpcode _ _) => 1
  | some (.truncatedInstruction _ _) => 2
  | some (.memoryOutOfRange _) => 3

/-- What the host sees of the registers. -/
structure HostView where
  status : Status
  fault : Option Fault
  /-- The final `ACC` and `PC`, only in `HALTED` (R157). -/
  final : Option (Word × Nat)
  deriving DecidableEq, Repr

/-- `STATUS` and `FAULT` always; the final `ACC` and `PC` in `HALTED` only (R157, D8, D13). -/
def hostView (s : State) : HostView where
  status := s.status
  fault := s.fault
  final :=
    match s.status with
    | .halted => some (s.acc, s.pc)
    | .running => none
    | .faulted => none

/-- The answer to a snapshot request. -/
inductive SnapshotAnswer where
  /-- The ordered mapping from address to value. -/
  | entries (cells : List (Nat × Word))
  /-- Not available in this status (R46, D8). -/
  | refused (status : Status)
  deriving DecidableEq, Repr

/-- The entries of addresses a, a + 1, ..., n of them. -/
def snapshotFrom (m : Memory) : Nat → Nat → List (Nat × Word)
  | _, 0 => []
  | a, n + 1 => (a, m.read a) :: snapshotFrom m (a + 1) n

/-- `snapshot(start, end)`: addresses start to `min(end, 65535)` in increasing order, none when start is above that; only in
`HALTED` (R45, R46). -/
def snapshot (s : State) (start stop : Nat) : SnapshotAnswer :=
  match s.status with
  | .halted => .entries (snapshotFrom s.mem start (min stop 65535 + 1 - start))
  | .running => .refused .running
  | .faulted => .refused .faulted

end Sys2Proof.Machine
end

