-- ==== Sys2Proof/Machine/Run.lean ====
section
/-! DEFINITION. A whole run (R80, R154), and the execution of a list of typed instructions in order, without fetch or decode
(R87, R90), which a run of their encodings is compared with. -/

namespace Sys2Proof.Machine

/-- The run of a program from reset, given as many turns of the loop as a run can take: at most `PROG_LEN` instructions and
the turn that halts (R88, R163; notes/assumptions/6.md). -/
def runProgram (prog : List Byte) : Host.Outcome State Fault Refusal :=
  Sys2Proof.core.run (prog.length + 1) (State.startRun prog)

/-- Apply one instruction after advancing past it (R81); nothing happens once the run has ended (R16). -/
def applyInstr (i : Instr) (s : State) : Host.Outcome State Fault Refusal :=
  match s.status with
  | .running => exec i (s.advance (s.pc + i.length))
  | .halted => .next s
  | .faulted => .next s

/-- Apply a list of instructions one after another, each in full before the next (R87). -/
def applyAll : List Instr → State → Host.Outcome State Fault Refusal
  | [], s => .next s
  | i :: is, s =>
    match applyInstr i s with
    | .next t => applyAll is t
    | .fault r => .fault r
    | .refused r => .refused r

end Sys2Proof.Machine
end

