-- ==== Sys2Proof/Safety.lean ====
section
/-! DEFINITION. What holds in every state a run reaches, as decidable predicates over plain data, and what a safe run is. -/

namespace Sys2Proof.Machine

/-- `0 <= PC <= PROG_LEN` (R14). -/
def State.PcInBounds (s : State) : Prop := s.pc ≤ s.prog.length

/-- The data memory is in canonical form. -/
def State.MemCanonical (s : State) : Prop := s.mem.wf = true

/-- "Cells 8192 to 65535 cannot be written by any instruction; they stay 0 for the whole run" (R106). -/
def State.HighCellsZero (s : State) : Prop := ∀ a, 8192 ≤ a → s.mem.read a = 0

/-- A halted run stands at the end of the program (R84, R155). -/
def State.HaltedAtEnd (s : State) : Prop := s.status = .halted → s.pc = s.prog.length

/-- What must be so in the machine for a fault record to stand (R120 to R123, R126): a decode fault is the Decoder's answer at
`PC`, which the fault left at the cursor; a `MemoryOutOfRange` stands behind a `READ` byte just passed, with the
offending address still in `ACC`. -/
def State.Explains (s : State) : Fault → Prop
  | .unknownOpcode raw7 cursor => cursor = s.pc ∧ decode s.prog s.pc = .unknownOpcode raw7 cursor
  | .truncatedInstruction opcode cursor => cursor = s.pc ∧ decode s.prog s.pc = .truncatedInstruction opcode cursor
  | .memoryOutOfRange address =>
    address = s.acc ∧ 65535 < address.toNat ∧ ∃ c, s.pc = c + 1 ∧ decode s.prog c = .instr .read s.pc

/-- `FAULT` is none while `STATUS` is running or halted, and in `FAULTED` it is a record the machine's state explains (R17). -/
def State.FaultRecordRight (s : State) : Prop :=
  match s.fault with
  | none => s.status ≠ .faulted
  | some f => s.status = .faulted ∧ s.Explains f

/-- The invariant of a run: all of the above. -/
structure State.Inv (s : State) : Prop where
  pcInBounds : s.PcInBounds
  memCanonical : s.MemCanonical
  highCellsZero : s.HighCellsZero
  haltedAtEnd : s.HaltedAtEnd
  faultRecordRight : s.FaultRecordRight

/-- The run has ended (R155). -/
def State.Ended (s : State) : Prop := s.status ≠ .running

/-- A safe run of a program ends normally: `STATUS = HALTED`, with no fault raised (R155). -/
def RunsSafely (prog : List Byte) : Prop := ∃ t, runProgram prog = .next t ∧ t.status = .halted

end Sys2Proof.Machine
end

