-- ==== Sys2Proof/Certificates/Slice0/Obligations.lean ====
section
/-! DEFINITION. The statements about this model, each from a rule of spec/ (OBLIGATIONS.json names it). A quantifier over programs is
over every byte sequence; no particular program is meant. -/

open Sys2Proof Sys2Proof.Machine

/-! ## Encoding and decoding -/

/-- A few words written out bit by bit from R51 to R54 decode to the instructions they stand for, bit 7 of the first byte and the
ignored bits among them. -/
def Obligations.TableWordsDecode : Prop :=
  decodeTableWord 40 0b0000000000000000000000000000000000111001 = some (.load 0) ∧
  decodeTableWord 40 0b0000000000000000000000000000000010111001 = some (.load 1) ∧
  decodeTableWord 40 0b1111111111111111111111111111111110111001 = some (.load 0x7FFFFFFF) ∧
  decodeTableWord 8 0b01100110 = some .read ∧
  decodeTableWord 8 0b11100110 = some .read ∧
  decodeTableWord 24 0b000000000000010101110000 = some (.write 10) ∧
  decodeTableWord 24 0b111111111111111111110000 = some (.write 8191) ∧
  decodeTableWord 8 0b00000101 = some .bswap ∧
  decodeTableWord 8 0b10000101 = some .bswap ∧
  decodeTableWord 8 0b00000000 = none

/-- R51: the one-byte forms, read whatever bit 7 is, anywhere in a program; the Encoder writes bit 7 as 0. -/
def Obligations.OneByteFormsIgnoreBit7 : Prop :=
  (∀ (pre post : List Byte) (b : Byte), low7 b = 102 →
    decode (pre ++ b :: post) pre.length = .instr .read (pre.length + 1)) ∧
  (∀ (pre post : List Byte) (b : Byte), low7 b = 5 →
    decode (pre ++ b :: post) pre.length = .instr .bswap (pre.length + 1)) ∧
  encodeChecked .read none = .ok [0x66] ∧ encodeChecked .bswap none = .ok [0x05] ∧
  low7 0xE6 = 102 ∧ low7 0x85 = 5

/-- R52: the byte layout of `WRITE`: `addr13[0]` is bit 7 of b0, `addr13[8:1]` is b1, `addr13[12:9]` is bits 3:0 of b2, bits 7:4
of b2 ignored; the Encoder accepts only 0 to 4095, and in every encoding it produces bits 23:19 are 0. -/
def Obligations.WriteFieldLayout : Prop :=
  (∀ (pre post : List Byte) (b0 b1 b2 : Byte), low7 b0 = 112 →
    decode (pre ++ [b0, b1, b2] ++ post) pre.length =
      .instr (.write (BitVec.ofNat 32 (b0.toNat / 2 ^ 7 + 2 * b1.toNat + 2 ^ 9 * (b2.toNat % 2 ^ 4)))) (pre.length + 3)) ∧
  (∀ (v : Int) (bytes : List Byte), encodeChecked .write (some v) = .ok bytes →
    0 ≤ v ∧ v ≤ 4095 ∧ ∃ b0 b1 b2, bytes = [b0, b1, b2] ∧ low7 b0 = 112 ∧ b2.toNat < 2 ^ 3)

/-- R53: the byte layout of `LOAD`: `imm31[0]` is bit 7 of b0, then b1, b2, b3, and `imm31[30:25]` is bits 5:0 of b4, bits 7:6 of b4
ignored; the Encoder writes them as 0. -/
def Obligations.LoadFieldLayout : Prop :=
  (∀ (pre post : List Byte) (b0 b1 b2 b3 b4 : Byte), low7 b0 = 57 →
    decode (pre ++ [b0, b1, b2, b3, b4] ++ post) pre.length =
      .instr (.load (BitVec.ofNat 32 (b0.toNat / 2 ^ 7 + 2 * b1.toNat + 2 ^ 9 * b2.toNat + 2 ^ 17 * b3.toNat +
        2 ^ 25 * (b4.toNat % 2 ^ 6)))) (pre.length + 5)) ∧
  (∀ (v : Int) (bytes : List Byte), encodeChecked .load (some v) = .ok bytes →
    ∃ b0 b1 b2 b3 b4, bytes = [b0, b1, b2, b3, b4] ∧ low7 b0 = 57 ∧ b4.toNat < 2 ^ 6)

/-- R59 and R121: the Decoder answers `UnknownOpcode`, with the masked 7 bits and the cursor, for exactly the first bytes outside
`05 85 39 B9 66 E6 70 F0`, whatever follows them, and the step takes that fault. -/
def Obligations.IllegalFirstBytesFault : Prop :=
  (∀ (prog : List Byte) (c : Nat) (b : Byte), prog[c]? = some b →
    ((∃ r k, decode prog c = .unknownOpcode r k) ↔ b ∉ ([0x05, 0x85, 0x39, 0xB9, 0x66, 0xE6, 0x70, 0xF0] : List Byte))) ∧
  (∀ (s : State) (b : Byte), s.status = .running → s.prog[s.pc]? = some b →
    b ∉ ([0x05, 0x85, 0x39, 0xB9, 0x66, 0xE6, 0x70, 0xF0] : List Byte) →
    step s = .next { s with status := .faulted, fault := some (.unknownOpcode (b.setWidth 7) s.pc) }) ∧
  ((List.range 128).filter fun v => (opcodeOf (BitVec.ofNat 7 v)).isNone).length = 124 ∧
  ((List.range 256).filter fun v => (opcodeOf (low7 (BitVec.ofNat 8 v))).isNone).length = 248 ∧
  opcodeOf 0 = none ∧ opcodeOf 127 = none

/-- R122: `TruncatedInstruction`, with the opcode and the cursor, exactly for a `LOAD` byte with fewer than 5 bytes left or a `WRITE`
byte with fewer than 3, whatever bytes are present; the step takes that fault, and the run reaches no other state after it. -/
def Obligations.TruncationFaultsExactly : Prop :=
  (∀ (prog : List Byte) (c : Nat) (b : Byte), prog[c]? = some b →
    ∀ v k, decode prog c = .truncatedInstruction v k ↔
      k = c ∧ v = low7 b ∧ (v = 57 ∧ prog.length < c + 5 ∨ v = 112 ∧ prog.length < c + 3)) ∧
  (∀ (s : State) (b : Byte), s.status = .running → s.prog[s.pc]? = some b →
    (low7 b = 57 ∧ s.prog.length < s.pc + 5 ∨ low7 b = 112 ∧ s.prog.length < s.pc + 3) →
    step s = .next { s with status := .faulted, fault := some (.truncatedInstruction (low7 b) s.pc) } ∧
    ∀ n u, Sys2Proof.core.run (n + 1) s = .next u →
      u = { s with status := .faulted, fault := some (.truncatedInstruction (low7 b) s.pc) })

/-- R60: any value in the ignored bits decodes to the same instruction as zeros would, without a fault; the Encoder always writes
these bits as 0. -/
def Obligations.IgnoredBitsDoNotMatter : Prop :=
  (∀ (pre post : List Byte) (b : Byte), low7 b = 102 ∨ low7 b = 5 →
    ∃ i, decode (pre ++ b :: post) pre.length = .instr i (pre.length + 1) ∧
      decode (pre ++ (b &&& 0x7F) :: post) pre.length = .instr i (pre.length + 1)) ∧
  (∀ (pre post : List Byte) (b0 b1 b2 : Byte), low7 b0 = 112 →
    ∃ i, decode (pre ++ [b0, b1, b2] ++ post) pre.length = .instr i (pre.length + 3) ∧
      decode (pre ++ [b0, b1, b2 &&& 0x0F] ++ post) pre.length = .instr i (pre.length + 3)) ∧
  (∀ (pre post : List Byte) (b0 b1 b2 b3 b4 : Byte), low7 b0 = 57 →
    ∃ i, decode (pre ++ [b0, b1, b2, b3, b4] ++ post) pre.length = .instr i (pre.length + 5) ∧
      decode (pre ++ [b0, b1, b2, b3, b4 &&& 0x3F] ++ post) pre.length = .instr i (pre.length + 5)) ∧
  (∀ (op : Opcode) (v : Option Int) (bytes : List Byte), encodeChecked op v = .ok bytes →
    match op with
    | .read => ∃ b, bytes = [b] ∧ b &&& 0x80 = 0
    | .bswap => ∃ b, bytes = [b] ∧ b &&& 0x80 = 0
    | .write => ∃ b0 b1 b2, bytes = [b0, b1, b2] ∧ b2 &&& 0xF0 = 0
    | .load => ∃ b0 b1 b2 b3 b4, bytes = [b0, b1, b2, b3, b4] ∧ b4 &&& 0xC0 = 0)

/-- Decoding the encoding of a well-formed instruction, at any place in any program, gives it back and consumes exactly its bytes. -/
def Obligations.DecodeEncodeRoundTrip : Prop :=
  ∀ (i : Instr) (pre post : List Byte), i.wellFormed = true →
    decode (pre ++ encode i ++ post) pre.length = .instr i (pre.length + (encode i).length)

/-! ## The toolchain reference -/

/-- R64: the Encoder on `LOAD`: the range error outside 0 to 2^31 - 1, else the five bytes of `57 | (v << 7)`. -/
def Obligations.EncoderLoad : Prop :=
  (∀ v : Int, ¬(0 ≤ v ∧ v ≤ 2 ^ 31 - 1) → encodeChecked .load (some v) = .error (.operandOutOfRange .load v)) ∧
  (∀ v : Nat, v ≤ 2 ^ 31 - 1 →
    57 ||| (v <<< 7) < 2 ^ 38 ∧
    encodeChecked .load (some (v : Int)) =
      .ok [BitVec.ofNat 8 (57 ||| (v <<< 7)), BitVec.ofNat 8 ((57 ||| (v <<< 7)) >>> 8),
        BitVec.ofNat 8 ((57 ||| (v <<< 7)) >>> 16), BitVec.ofNat 8 ((57 ||| (v <<< 7)) >>> 24),
        BitVec.ofNat 8 ((57 ||| (v <<< 7)) >>> 32)]) ∧
  encodeChecked .load (some 500) = .ok [0x39, 0xFA, 0x00, 0x00, 0x00]

/-- R65: the Encoder on `WRITE`: the range error outside 0 to 4095, though 4096 to 8191 would decode, else the three bytes of
`112 | (v << 7)`. -/
def Obligations.EncoderWrite : Prop :=
  (∀ v : Int, ¬(0 ≤ v ∧ v ≤ 4095) → encodeChecked .write (some v) = .error (.operandOutOfRange .write v)) ∧
  (∀ v : Nat, v ≤ 4095 →
    112 ||| (v <<< 7) < 2 ^ 19 ∧
    encodeChecked .write (some (v : Int)) =
      .ok [BitVec.ofNat 8 (112 ||| (v <<< 7)), BitVec.ofNat 8 ((112 ||| (v <<< 7)) >>> 8),
        BitVec.ofNat 8 ((112 ||| (v <<< 7)) >>> 16)]) ∧
  (∀ v : Nat, 4096 ≤ v → v ≤ 8191 →
    decode [BitVec.ofNat 8 (112 ||| (v <<< 7)), BitVec.ofNat 8 ((112 ||| (v <<< 7)) >>> 8),
        BitVec.ofNat 8 ((112 ||| (v <<< 7)) >>> 16)] 0 = .instr (.write (BitVec.ofNat 32 v)) 3) ∧
  encodeChecked .write (some 10) = .ok [0x70, 0x05, 0x00]

/-- R66: the Encoder on `READ` and `BSWAP`: the opcode value alone; neither takes an operand, so with one no bytes are produced. -/
def Obligations.EncoderOneByte : Prop :=
  encodeChecked .read none = .ok [0x66] ∧ encodeChecked .bswap none = .ok [0x05] ∧
  ∀ (v : Int) (bytes : List Byte), encodeChecked .read (some v) ≠ .ok bytes ∧ encodeChecked .bswap (some v) ≠ .ok bytes

/-- R69, with the canonical encodings of R68: what the Encoder produces decodes to what was encoded, in exactly the bytes produced;
an instruction decoded from a non-canonical encoding is encoded otherwise or not at all. -/
def Obligations.EncoderDecoderRoundTrip : Prop :=
  (∀ v : Nat, v ≤ 2 ^ 31 - 1 → ∃ bytes, encodeChecked .load (some (v : Int)) = .ok bytes ∧
    decode bytes 0 = .instr (.load (BitVec.ofNat 32 v)) bytes.length) ∧
  (∀ v : Nat, v ≤ 4095 → ∃ bytes, encodeChecked .write (some (v : Int)) = .ok bytes ∧
    decode bytes 0 = .instr (.write (BitVec.ofNat 32 v)) bytes.length) ∧
  (∃ bytes, encodeChecked .read none = .ok bytes ∧ decode bytes 0 = .instr .read bytes.length) ∧
  (∃ bytes, encodeChecked .bswap none = .ok bytes ∧ decode bytes 0 = .instr .bswap bytes.length) ∧
  (∀ (bytes : List Byte) (i : Instr), decode bytes 0 = .instr i bytes.length → NonCanonical bytes →
    encodeChecked i.opcode (sourceOperand i) ≠ .ok bytes)

/-- From R68: of the encodings of one instruction, those the Encoder can produce are exactly the ones that are not in the table of
non-canonical encodings; clearing the ignored bits of the table's F5 and F3 rows leaves the Decoder's answer as it is (that this
answer is an instruction is IgnoredBitsDoNotMatter), and its other rows decode as the table says. -/
def Obligations.CanonicalExactly : Prop :=
  (∀ (bytes : List Byte) (i : Instr), decode bytes 0 = .instr i bytes.length →
    ((∃ op v, encodeChecked op v = .ok bytes) ↔ ¬NonCanonical bytes)) ∧
  (∀ (op : Opcode) (v : Option Int) (bytes : List Byte), encodeChecked op v = .ok bytes → ¬NonCanonical bytes) ∧
  decode [0xE6] 0 = .instr .read 1 ∧ decode [0x85] 0 = .instr .bswap 1 ∧
  (∀ b0 b1 b2 b3 b4 : Byte, low7 b0 = 57 → decode [b0, b1, b2, b3, b4] 0 = decode [b0, b1, b2, b3, b4 &&& 0x3F] 0) ∧
  (∀ b0 b1 b2 : Byte, low7 b0 = 112 → decode [b0, b1, b2] 0 = decode [b0, b1, b2 &&& 0x0F] 0) ∧
  (∀ a : Nat, 4096 ≤ a → a ≤ 8191 → (leBytes 3 (112 + 2 ^ 7 * a))[2]?.map (·.getLsbD 3) = some true ∧
    decode (leBytes 3 (112 + 2 ^ 7 * a)) 0 = .instr (.write (BitVec.ofNat 32 a)) 3)

/-- The mnemonics of R70, letters in any case; another mnemonic is the toolchain's `UnknownOpcode` (R67). -/
def Obligations.MnemonicsAnyCase : Prop :=
  (∀ (text : List Char) (op : Opcode), mnemonicOpcode text = some op ↔
    text.map Char.toUpper = (match op with
      | .load => "LOAD".toList
      | .read => "READ".toList
      | .write => "WRITE".toList
      | .bswap => "BSWAP".toList)) ∧
  (∀ r : Row, mnemonicOpcode r.opcode = none → encodeRow r = .error (.unknownOpcode r.opcode))

/-- R72: a listing whose rows are all valid assembles to the concatenation of their encodings, of the stated length; the first
invalid row aborts the whole translation with its error. -/
def Obligations.AssembleListing : Prop :=
  (∀ (rows : List Row) (is : List Instr), rows.map rowInstr = is.map .ok →
    assemble rows = .ok (encodeAll is) ∧
    (encodeAll is).length = 5 * (is.map Instr.opcode).count .load + 3 * (is.map Instr.opcode).count .write +
      (is.map Instr.opcode).count .read + (is.map Instr.opcode).count .bswap) ∧
  (∀ (good rest : List Row) (is : List Instr) (r : Row) (e : ToolError), good.map rowInstr = is.map .ok →
    rowInstr r = .error e → assemble (good ++ r :: rest) = .error e)

/-! ## Reset, the loop and its end -/

/-- R23: the state after reset, with any program in the store and with none. -/
def Obligations.ResetIsTheZeroState : Prop :=
  (∀ prog : List Byte, (State.startRun prog).acc = 0 ∧ (State.startRun prog).pc = 0 ∧
    (∀ a, a ≤ 65535 → (State.startRun prog).mem.read a = 0) ∧ (State.startRun prog).status = .running ∧
    (State.startRun prog).fault = none ∧ (State.startRun prog).prog = prog) ∧
  State.reset.acc = 0 ∧ State.reset.pc = 0 ∧ (∀ a, a ≤ 65535 → State.reset.mem.read a = 0) ∧
  State.reset.status = .running ∧ State.reset.fault = none

/-- A step of a running machine whose Decoder answers an instruction at `PC` is that instruction's exec in the state advanced past
its bytes: "decode one Instruction, advance the cursor, then apply" (R81, R82). -/
def Obligations.StepRunsDecodedInstruction : Prop :=
  ∀ (s : State) (i : Instr) (n : Nat), s.status = .running → decode s.prog s.pc = .instr i n →
    step s = exec i { s with pc := n } ∧ n = s.pc + i.length

/-- Every step, from every state, answers a next state: no ordinary data ends in a fault or a refusal of the interface. The three
faults of the hardware are next states (log 4) and an ended run answers itself (log 5): the model's choices. -/
def Obligations.StepAlwaysAnswersNext : Prop :=
  (∀ s : State, ∃ t, step s = .next t) ∧ ∀ (k : Nat) (s : State), ∃ t, Sys2Proof.core.run k s = .next t

/-- In `HALTED` and in `FAULTED` nothing changes, however many turns of the loop are asked for (R16, R128; log 5 for the answer). -/
def Obligations.EndedRunIsFrozen : Prop :=
  ∀ (s : State) (k : Nat), s.status ≠ .running → Sys2Proof.core.run k s = .next s

/-- R84: at `PC = PROG_LEN` the run halts and everything else keeps its value; with `PC` in bounds this is the only way to halt. -/
def Obligations.NormalEndExactly : Prop :=
  (∀ s : State, s.status = .running → s.pc = s.prog.length → step s = .next { s with status := .halted }) ∧
  (∀ s t : State, s.status = .running → s.PcInBounds → step s = .next t → t.status = .halted →
    s.pc = s.prog.length ∧ t = { s with status := .halted })

/-- R89: the empty program halts at once in the zero state. -/
def Obligations.EmptyProgramHalts : Prop :=
  step (State.startRun []) = .next { State.startRun [] with status := .halted } ∧
  runProgram [] = .next { acc := 0, pc := 0, mem := [], status := .halted, fault := none, prog := [] }

/-- From R88: a run ends: k instruction steps of it leave `PC` at k or above and never beyond `PROG_LEN`, so there are at most `PROG_LEN` of
them, and from any state the run has ended within one turn more than the bytes that are left.
That the move to `HALTED` is the one turn more is the model's inference (log 6); the advance by 1, 3 or 5 is PcAdvancesByLength. -/
def Obligations.EveryRunEnds : Prop :=
  (∀ (prog : List Byte) (k : Nat) (t : State), Sys2Proof.core.run k (State.startRun prog) = .next t →
    t.status = .running → k ≤ t.pc ∧ t.pc ≤ prog.length) ∧
  (∀ s : State, ∃ k t, k ≤ s.prog.length - s.pc + 1 ∧ Sys2Proof.core.run k s = .next t ∧ t.Ended) ∧
  (∀ prog : List Byte, ∃ k t, k ≤ prog.length + 1 ∧ Sys2Proof.core.run k (State.startRun prog) = .next t ∧ t.Ended)

/-! ## The four instructions -/

/-- `LOAD` completes in every state with every operand: `ACC` is the operand, nothing else changes (R83, R100). -/
def Obligations.ExecLoadCompletes : Prop :=
  ∀ (imm : Word) (s : State), exec (.load imm) s = .next { s with acc := imm }

/-- `READ` completes whenever the address in `ACC` is in range: `ACC` is the cell's value, nothing else changes (R83, R105). -/
def Obligations.ExecReadCompletes : Prop :=
  ∀ s : State, s.acc.toNat ≤ 65535 → exec .read s = .next { s with acc := s.mem.read s.acc.toNat }

/-- `WRITE` completes whenever its address is in range, which every decoded one is: the cell at the effective address holds all of
`ACC`, every other cell and everything else is unchanged (R33, R83, R106). -/
def Obligations.ExecWriteCompletes : Prop :=
  ∀ (addr : Word) (s : State), addr.toNat ≤ 65535 →
    ∃ t, exec (.write addr) s = .next t ∧
      (∀ a, effectiveAddress (.write addr) s = some a →
        ∀ x, t.mem.read x = if x = a.toNat then s.acc else s.mem.read x) ∧
      t = { s with mem := t.mem }

/-- `BSWAP` completes in every state: each byte of the new `ACC` is the mirrored byte of the old, nothing else changes (R83, R115). -/
def Obligations.ExecBswapCompletes : Prop :=
  ∀ s : State, ∃ v : Word, exec .bswap s = .next { s with acc := v } ∧
    v.extractLsb' 24 8 = s.acc.extractLsb' 0 8 ∧ v.extractLsb' 16 8 = s.acc.extractLsb' 8 8 ∧
    v.extractLsb' 8 8 = s.acc.extractLsb' 16 8 ∧ v.extractLsb' 0 8 = s.acc.extractLsb' 24 8

/-- R123: an access whose effective address is above 65535 raises `MemoryOutOfRange` with the full address and is not performed; for
`READ` this is exactly `ACC >= 65536`; for a decoded `WRITE` the test is never true. -/
def Obligations.OutOfRangeAccessFaults : Prop :=
  (∀ (i : Instr) (s : State) (a : Word), effectiveAddress i s = some a → 65536 ≤ a.toNat →
    exec i s = .next { s with status := .faulted, fault := some (.memoryOutOfRange a) }) ∧
  (∀ (s t : State), s.status = .running → exec .read s = .next t → (t.status = .faulted ↔ 65536 ≤ s.acc.toNat)) ∧
  (∀ (prog : List Byte) (c n : Nat) (a : Word), decode prog c = .instr (.write a) n → a.toNat ≤ 8191)

/-- R100, the whole rule at the level of a step: decode, truncation, advance, effect; bit 31 of the new `ACC` is 0. And the
assembler's range for `LOAD`. -/
def Obligations.LoadRule : Prop :=
  (∀ (s : State) (b : Byte), s.status = .running → s.prog[s.pc]? = some b → low7 b = 57 →
    (s.prog.length < s.pc + 5 →
      step s = .next { s with status := .faulted, fault := some (.truncatedInstruction 57 s.pc) }) ∧
    (s.pc + 5 ≤ s.prog.length →
      step s = .next { s with acc := BitVec.ofNat 32 (progWord s.prog s.pc 5 / 2 ^ 7 % 2 ^ 31), pc := s.pc + 5 } ∧
      (BitVec.ofNat 32 (progWord s.prog s.pc 5 / 2 ^ 7 % 2 ^ 31)).getLsbD 31 = false)) ∧
  (∀ v : Int, (∃ bytes, encodeChecked .load (some v) = .ok bytes) ↔ 0 ≤ v ∧ v ≤ 2 ^ 31 - 1)

/-- R105, the whole rule at the level of a step: `66` and `E6` alike advance `PC` by 1 and load the cell, or raise `MemoryOutOfRange` with
`ACC` and `MEM` unchanged and `PC` already advanced. -/
def Obligations.ReadRule : Prop :=
  (∀ (s : State) (b : Byte), s.status = .running → s.prog[s.pc]? = some b → b = 0x66 ∨ b = 0xE6 →
    (s.acc.toNat ≤ 65535 → step s = .next { s with acc := s.mem.read s.acc.toNat, pc := s.pc + 1 }) ∧
    (65536 ≤ s.acc.toNat →
      step s = .next { s with pc := s.pc + 1, status := .faulted, fault := some (.memoryOutOfRange s.acc) })) ∧
  encodeChecked .read none = .ok [0x66]

/-- R106, the whole rule at the level of a step: decode, truncation, advance, store of all of `ACC` into the one cell named by the 13-bit
operand; no `MemoryOutOfRange`; cells 8192 and above are never written. And the assembler's range for `WRITE`. -/
def Obligations.WriteRule : Prop :=
  (∀ (s : State) (b : Byte), s.status = .running → s.prog[s.pc]? = some b → low7 b = 112 →
    (s.prog.length < s.pc + 3 →
      step s = .next { s with status := .faulted, fault := some (.truncatedInstruction 112 s.pc) }) ∧
    (s.pc + 3 ≤ s.prog.length →
      ∃ t, step s = .next t ∧ t = { s with pc := s.pc + 3, mem := t.mem } ∧
        (∀ x, t.mem.read x = if x = progWord s.prog s.pc 3 / 2 ^ 7 % 2 ^ 13 then s.acc else s.mem.read x) ∧
        (∀ x, 8192 ≤ x → t.mem.read x = s.mem.read x))) ∧
  (∀ v : Int, (∃ bytes, encodeChecked .write (some v) = .ok bytes) ↔ 0 ≤ v ∧ v ≤ 4095)

/-- R115, the whole rule at the level of a step: `05` and `85` alike advance `PC` by 1 and reverse the four bytes of `ACC`. -/
def Obligations.BswapRule : Prop :=
  (∀ (s : State) (b : Byte), s.status = .running → s.prog[s.pc]? = some b → b = 0x05 ∨ b = 0x85 →
    step s = .next
      { s with
        acc := (s.acc.setWidth 8).setWidth 32 <<< 24 ||| ((s.acc >>> 8).setWidth 8).setWidth 32 <<< 16 |||
          ((s.acc >>> 16).setWidth 8).setWidth 32 <<< 8 ||| s.acc >>> 24,
        pc := s.pc + 1 }) ∧
  encodeChecked .bswap none = .ok [0x05]

/-- R116: `BSWAP` is its own inverse and a bijection; two of them in a row leave `ACC` as it was and advance `PC` by 2. -/
def Obligations.BswapInvolution : Prop :=
  (∀ a : Word, bswap32 (bswap32 a) = a) ∧ Function.Bijective bswap32 ∧
  ∀ (s : State) (b b' : Byte), s.status = .running → s.prog[s.pc]? = some b → s.prog[s.pc + 1]? = some b' →
    low7 b = 5 → low7 b' = 5 → Sys2Proof.core.run 2 s = .next { s with pc := s.pc + 2 }

/-! ## Frames -/

/-- The frame of the three instructions that store nothing (`LOAD`, `READ`, `BSWAP`; destination `ACC`): every cell reads as before, `PC` and
the program are as given, `STATUS` and `FAULT` are unchanged but for `READ`'s out-of-range fault, which leaves `ACC` too. -/
def Obligations.FrameOfRegisterInstructions : Prop :=
  ∀ (i : Instr) (s t : State), (∃ imm, i = .load imm) ∨ i = .read ∨ i = .bswap → exec i s = .next t →
    (∀ x, t.mem.read x = s.mem.read x) ∧ t.mem = s.mem ∧ t.pc = s.pc ∧ t.prog = s.prog ∧
    ((t.status = s.status ∧ t.fault = s.fault) ∨
      (i = .read ∧ 65536 ≤ s.acc.toNat ∧ t.acc = s.acc ∧ t.status = .faulted ∧ t.fault = some (.memoryOutOfRange s.acc)))

/-- The frame of `WRITE`: every cell but the one at its effective address reads as before; `ACC`, `PC` and the program are unchanged, and
so are `STATUS` and `FAULT` unless the address is out of range, and then no cell changes. -/
def Obligations.FrameOfWrite : Prop :=
  ∀ (addr : Word) (s t : State), exec (.write addr) s = .next t →
    (∀ a, effectiveAddress (.write addr) s = some a → ∀ x, x ≠ a.toNat → t.mem.read x = s.mem.read x) ∧
    t.acc = s.acc ∧ t.pc = s.pc ∧ t.prog = s.prog ∧
    ((t.status = s.status ∧ t.fault = s.fault) ∨
      (65536 ≤ addr.toNat ∧ t.mem = s.mem ∧ t.status = .faulted ∧ t.fault = some (.memoryOutOfRange addr)))

/-! ## Faults -/

/-- R120: which fault a step of a running machine records, in terms of the byte at `PC`, the bytes left and `ACC`, with the information
and the `PC` of the table; and the numeric codes. -/
def Obligations.FaultsExactlyAsTabled : Prop :=
  (∀ (s t : State) (f : Fault), s.status = .running → s.fault = none → step s = .next t →
    (t.fault = some f ↔
      ∃ b, s.prog[s.pc]? = some b ∧
        match f with
        | .unknownOpcode r k => low7 b ∉ ([5, 57, 102, 112] : List (BitVec 7)) ∧ r = low7 b ∧ k = s.pc
        | .truncatedInstruction v k =>
          (low7 b = 57 ∧ s.prog.length < s.pc + 5 ∨ low7 b = 112 ∧ s.prog.length < s.pc + 3) ∧ v = low7 b ∧ k = s.pc
        | .memoryOutOfRange a => low7 b = 102 ∧ 65536 ≤ s.acc.toNat ∧ a = s.acc)) ∧
  (∀ (s t : State) (f : Fault), s.status = .running → s.fault = none → step s = .next t → t.fault = some f →
    match f with
    | .unknownOpcode _ _ => t.pc = s.pc
    | .truncatedInstruction _ _ => t.pc = s.pc
    | .memoryOutOfRange _ => t.pc = s.pc + 1) ∧
  faultCode none = 0 ∧ (∀ r k, faultCode (some (.unknownOpcode r k)) = 1) ∧
  (∀ v k, faultCode (some (.truncatedInstruction v k)) = 2) ∧ (∀ a, faultCode (some (.memoryOutOfRange a)) = 3)

/-- R126: a step that faults writes `FAULT` and `STATUS` and leaves `ACC` and `MEM`; `PC` stays for a decode fault and has passed the
instruction for `MemoryOutOfRange`; the run ends there; the host may read `STATUS` and `FAULT` only. -/
def Obligations.FaultEntry : Prop :=
  ∀ s t : State, s.status = .running → step s = .next t → t.status = .faulted →
    (∃ f, t.fault = some f ∧
      match f with
      | .unknownOpcode _ _ => t.pc = s.pc
      | .truncatedInstruction _ _ => t.pc = s.pc
      | .memoryOutOfRange _ => ∃ i, decode s.prog s.pc = .instr i t.pc ∧ t.pc = s.pc + i.length) ∧
    t.acc = s.acc ∧ t.mem = s.mem ∧ t.prog = s.prog ∧
    (∀ k u, Sys2Proof.core.run k t = .next u → u = t) ∧
    hostView t = { status := .faulted, fault := t.fault, final := none } ∧
    ∀ start stop, snapshot t start stop = .refused .faulted

/-- No decoded `WRITE` raises a fault (R106: "no decoded `WRITE` can raise it"). -/
def Obligations.DecodedWriteNeverFaults : Prop :=
  ∀ (s t : State) (a : Word) (n : Nat), s.status = .running → decode s.prog s.pc = .instr (.write a) n →
    step s = .next t → t.status = .running ∧ t.fault = s.fault

/-! ## The whole machine -/

/-- R14: each decoded instruction adds its own length to `PC`, a failed decode leaves it, and `0 <= PC <= PROG_LEN` is kept. -/
def Obligations.PcAdvancesByLength : Prop :=
  (∀ (s t : State) (b : Byte), s.status = .running → s.prog[s.pc]? = some b → step s = .next t →
    match decode s.prog s.pc with
    | .instr i n => t.pc = n ∧ n = s.pc + (match i with | .load _ => 5 | .write _ => 3 | .read => 1 | .bswap => 1)
    | .unknownOpcode _ _ => t.pc = s.pc
    | .truncatedInstruction _ _ => t.pc = s.pc
    | .outsideProgram _ => False) ∧
  (∀ s t : State, s.PcInBounds → step s = .next t → t.PcInBounds) ∧
  (∀ prog : List Byte, (State.startRun prog).PcInBounds)

/-- "Only `WRITE` changes a cell and it changes exactly one" (R15): a step that changes a cell runs a decoded `WRITE` of a running machine;
and the step of a decoded `WRITE` puts `ACC` into the cell at its effective address, taken in the state after the advance, which is
w[19:7] of the bytes at `PC` and at most 8191, every other cell as before. -/
def Obligations.OnlyWriteChangesMemory : Prop :=
  (∀ (s t : State) (x : Nat), step s = .next t → t.mem.read x ≠ s.mem.read x →
    s.status = .running ∧ (∃ b, s.prog[s.pc]? = some b ∧ low7 b = 112) ∧
      ∃ addr n, decode s.prog s.pc = .instr (.write addr) n) ∧
  (∀ (s t : State) (addr : Word) (n : Nat), s.status = .running → decode s.prog s.pc = .instr (.write addr) n →
    step s = .next t →
    ∃ a, effectiveAddress (.write addr) { s with pc := n } = some a ∧
      a.toNat = progWord s.prog s.pc 3 / 2 ^ 7 % 2 ^ 13 ∧ a.toNat ≤ 8191 ∧
      ∀ x, t.mem.read x = if x = a.toNat then s.acc else s.mem.read x)

/-- R12's column of writers: a step that changes `ACC` runs a `LOAD`, `READ` or `BSWAP` byte and raises no fault. -/
def Obligations.OnlyThreeInstructionsChangeAcc : Prop :=
  ∀ s t : State, step s = .next t → t.acc ≠ s.acc →
    s.status = .running ∧ t.status = .running ∧
      ∃ b, s.prog[s.pc]? = some b ∧ low7 b ∈ ([57, 102, 5] : List (BitVec 7))

/-- The program store is constant: no number of steps changes it (R35). -/
def Obligations.ProgramStoreConstant : Prop :=
  ∀ (k : Nat) (s t : State), Sys2Proof.core.run k s = .next t → t.prog = s.prog

/-- A step reads the program store at offsets `PC` to `PC + 4` only (R35), beside its length: with any store of the same length that agrees
there, the step does the same. -/
def Obligations.StepReadsOnlyItsFetchWindow : Prop :=
  ∀ (s t : State) (p : List Byte), p.length = s.prog.length → (∀ j, j ≤ 4 → p[s.pc + j]? = s.prog[s.pc + j]?) →
    step s = .next t → step { s with prog := p } = .next { t with prog := p }

/-- The data memory keeps its canonical form under every step, so that equal memories stay equal data (log 3, the model's form). -/
def Obligations.MemoryStaysCanonical : Prop := ∀ s t : State, s.MemCanonical → step s = .next t → t.MemCanonical

/-- Cells 8192 to 65535 stay 0: no step makes one non-zero (R106, corner cases). -/
def Obligations.HighCellsStayZero : Prop := ∀ s t : State, s.HighCellsZero → step s = .next t → t.HighCellsZero

/-- The start of every run meets the invariant, and so does the reset state. -/
def Obligations.InvariantAtReset : Prop := State.reset.Inv ∧ ∀ prog : List Byte, (State.startRun prog).Inv

/-- Every step keeps the invariant: `PC` in bounds, memory canonical, high cells 0, halted only at the end, and a fault record that the
machine's state explains (R14, R17, R106, R155). -/
def Obligations.InvariantKeptByEveryStep : Prop := ∀ s t : State, s.Inv → step s = .next t → t.Inv

/-- R42 (b) and (c): after a `WRITE` of an in-range address, and any instructions among which no other writes that address, the cell
holds what was in `ACC` at that `WRITE`; with no `WRITE` to it at all it is as before. -/
def Obligations.CellHoldsLatestWrite : Prop :=
  (∀ (addr : Word) (is : List Instr) (s t : State), addr.toNat ≤ 65535 → s.status = .running →
    (∀ a, .write a ∈ is → a ≠ addr) → applyAll (.write addr :: is) s = .next t → t.mem.read addr.toNat = s.acc) ∧
  (∀ (addr : Word) (is : List Instr) (s t : State), (∀ a, .write a ∈ is → a ≠ addr) → applyAll is s = .next t →
    t.mem.read addr.toNat = s.mem.read addr.toNat)

/-- Fetch, decode and execute refine plain execution in order: where the encodings of a list of well-formed instructions stand at `PC`,
that many steps do exactly what applying the instructions one after another does, stopping at the same fault (R87, R90). -/
def Obligations.EncodedInstructionsRunInOrder : Prop :=
  ∀ (is : List Instr) (pre post : List Byte) (s : State), (∀ i ∈ is, i.wellFormed = true) →
    s.prog = pre ++ encodeAll is ++ post → s.pc = pre.length → Sys2Proof.core.run is.length s = applyAll is s

/-- A whole run of an assembled listing is its instructions applied in order from the zero state and then the normal end, or the first
`MemoryOutOfRange`; no decode fault occurs and no cell above 4095 is ever non-zero (R72, R85, R90; 95_test_vectors.md section 4).
That `runProgram` asks for more turns than the run needs, and gets the ended state back, is the model's choice (logs 5 and 6). -/
def Obligations.AssembledListingRuns : Prop :=
  ∀ (rows : List Row) (bytes : List Byte), assemble rows = .ok bytes →
    ∃ is t, rows.map rowInstr = is.map .ok ∧ applyAll is (State.startRun bytes) = .next t ∧
      runProgram bytes = .next (if t.status = .running then { t with status := .halted } else t) ∧
      (t.fault = none ∨ ∃ a, t.fault = some (.memoryOutOfRange a)) ∧ ∀ x, 4096 ≤ x → t.mem.read x = 0

/-- A run ends normally exactly when no fault was raised, and then `PC = PROG_LEN` (R155; `runProgram`'s turns: logs 5 and 6). -/
def Obligations.RunEndsNormallyIffNoFault : Prop :=
  (∀ prog : List Byte, RunsSafely prog ↔ ∃ t, runProgram prog = .next t ∧ t.fault = none) ∧
  (∀ (prog : List Byte) (t : State), runProgram prog = .next t → t.status = .halted →
    t.pc = prog.length ∧ t.fault = none ∧ t.prog = prog)

/-! ## The host's reads -/

/-- R45: a snapshot in `HALTED` has the addresses start to `min(end, 65535)` in increasing order, each with its cell's value. -/
def Obligations.SnapshotListsTheRange : Prop :=
  ∀ (s : State) (start stop : Nat), s.status = .halted →
    ∃ cells, snapshot s start stop = .entries cells ∧ cells.length = min stop 65535 + 1 - start ∧
      ∀ k, k < cells.length → cells[k]? = some (start + k, s.mem.read (start + k))

/-- R46: a snapshot is answered exactly in `HALTED`, and however many are taken the state, and so every answer, stays the same. -/
def Obligations.SnapshotOnlyWhenHalted : Prop :=
  (∀ (s : State) (start stop : Nat), (∃ cells, snapshot s start stop = .entries cells) ↔ s.status = .halted) ∧
  (∀ (s t : State) (start stop : Nat), s.status = .halted → step s = .next t → snapshot t start stop = snapshot s start stop)

/-- R157: in `HALTED` the host reads `STATUS`, `FAULT` (none, where the fault record is right), `ACC` and `PC`; in `FAULTED` only `STATUS` and
`FAULT`. -/
def Obligations.HostViewByStatus : Prop :=
  (∀ s : State, s.status = .halted → s.FaultRecordRight →
    hostView s = { status := .halted, fault := none, final := some (s.acc, s.pc) }) ∧
  (∀ s : State, s.status = .faulted → hostView s = { status := .faulted, fault := s.fault, final := none })
end

