-- ==== Sys2Proof/Laws/Decode.lean ====
section
/-! SUPPORT. The Decoder's answers, said once each way, and the arithmetic of the little-endian words. -/

namespace Sys2Proof

/-! ## Little-endian words -/

@[simp] theorem leBytes_length (n w : Nat) : (leBytes n w).length = n := by
  induction n generalizing w with
  | zero => rfl
  | succ n ih => simp [leBytes, ih]

theorem leWord_leBytes (n w : Nat) : leWord (leBytes n w) = w % 2 ^ (8 * n) := by
  induction n generalizing w with
  | zero => simp [leBytes, leWord, Nat.mod_one]
  | succ n ih =>
    have hpow : 2 ^ (8 * (n + 1)) = 2 ^ 8 * 2 ^ (8 * n) := by rw [← pow_add]; congr 1; omega
    rw [leBytes, leWord, ih, hpow, Nat.mod_mul, BitVec.toNat_ofNat]

theorem leWord_lt (bs : List Byte) : leWord bs < 2 ^ (8 * bs.length) := by
  induction bs with
  | nil => simp [leWord]
  | cons b bs ih =>
    have hpow : 2 ^ (8 * (b :: bs).length) = 2 ^ 8 * 2 ^ (8 * bs.length) := by
      rw [← pow_add]; congr 1; simp; omega
    have hb := b.isLt
    rw [leWord, hpow]
    omega

theorem bitField_eq (w hi lo : Nat) : bitField w hi lo = w / 2 ^ lo % 2 ^ (hi - lo + 1) := by
  simp [bitField, Nat.shiftRight_eq_div_pow]

theorem low7_toNat (b : Byte) : (low7 b).toNat = b.toNat % 128 := by
  simp [low7]

/-! ## Opcodes and lengths -/

@[simp] theorem opcodeOf_value (op : Opcode) : opcodeOf op.value = some op := by cases op <;> rfl

theorem opcodeOf_some {v : BitVec 7} {op : Opcode} (h : opcodeOf v = some op) : v = op.value := by
  unfold opcodeOf at h
  split at h
  · cases h; assumption
  split at h
  · cases h; assumption
  split at h
  · cases h; assumption
  split at h
  · cases h; assumption
  · cases h

theorem Opcode.length_pos (op : Opcode) : 0 < op.length := by cases op <;> decide

theorem Opcode.length_le (op : Opcode) : op.length ≤ Config.maxInstrLength := by cases op <;> decide

theorem Instr.length_pos (i : Instr) : 0 < i.length := i.opcode.length_pos

/-! ## Operands -/

theorem loadOperand_toNat (w : Nat) : (loadOperand w).toNat = w / 128 % 2 ^ 31 := by
  simp only [loadOperand, bitField_eq, BitVec.toNat_ofNat]
  omega

theorem writeOperand_toNat (w : Nat) : (writeOperand w).toNat = w / 128 % 2 ^ 13 := by
  simp only [writeOperand, bitField_eq, BitVec.toNat_ofNat]
  omega

theorem loadOperandFits_loadOperand (w : Nat) : loadOperandFits (loadOperand w) = true := by
  simp only [loadOperandFits, loadOperand_toNat, decide_eq_true_eq]
  omega

theorem writeOperandFits_writeOperand (w : Nat) : writeOperandFits (writeOperand w) = true := by
  simp only [writeOperandFits, writeOperand_toNat, decide_eq_true_eq]
  omega

/-! ## The Decoder -/

/-- What the availability check answers (R62). -/
theorem requireBytes_cases (prog : List Byte) (c : Nat) (op : Opcode) (i : Instr) :
    (prog.length < c + op.length ∧ requireBytes prog c op i = .truncatedInstruction op.value c) ∨
      (c + op.length ≤ prog.length ∧ requireBytes prog c op i = .instr i (c + op.length)) := by
  unfold requireBytes
  split
  · exact .inl ⟨by omega, rfl⟩
  · exact .inr ⟨by omega, rfl⟩

theorem decode_outside {prog : List Byte} {c : Nat} (h : prog.length ≤ c) : decode prog c = .outsideProgram c := by
  simp [decode, List.getElem?_eq_none h]

/-! The answer of the Decoder once the opcode of the first byte is known. -/

theorem decode_of_load {prog : List Byte} {c : Nat} {b : Byte} (hb : prog[c]? = some b)
    (ho : opcodeOf (low7 b) = some .load) :
    decode prog c = requireBytes prog c .load (.load (loadOperand (progWord prog c 5))) := by
  simp only [decode, hb, ho]

theorem decode_of_read {prog : List Byte} {c : Nat} {b : Byte} (hb : prog[c]? = some b)
    (ho : opcodeOf (low7 b) = some .read) : decode prog c = .instr .read (c + 1) := by
  simp only [decode, hb, ho]

theorem decode_of_write {prog : List Byte} {c : Nat} {b : Byte} (hb : prog[c]? = some b)
    (ho : opcodeOf (low7 b) = some .write) :
    decode prog c = requireBytes prog c .write (.write (writeOperand (progWord prog c 3))) := by
  simp only [decode, hb, ho]

theorem decode_of_bswap {prog : List Byte} {c : Nat} {b : Byte} (hb : prog[c]? = some b)
    (ho : opcodeOf (low7 b) = some .bswap) : decode prog c = .instr .bswap (c + 1) := by
  simp only [decode, hb, ho]

theorem decode_of_no_opcode {prog : List Byte} {c : Nat} {b : Byte} (hb : prog[c]? = some b)
    (ho : opcodeOf (low7 b) = none) : decode prog c = .unknownOpcode (low7 b) c := by
  simp [decode, hb, ho]

/-- All that an instruction answered by the Decoder says: its first byte selects its opcode, its operand fits its field, its
length is the opcode's, and all its bytes are inside the program. -/
theorem decode_instr {prog : List Byte} {c n : Nat} {i : Instr} (h : decode prog c = .instr i n) :
    ∃ b, prog[c]? = some b ∧ opcodeOf (low7 b) = some i.opcode ∧ n = c + i.length ∧ n ≤ prog.length ∧
      i.wellFormed = true := by
  unfold decode at h
  split at h
  · cases h
  · next b hb =>
    have hc : c < prog.length := by
      by_contra hge
      rw [List.getElem?_eq_none (by omega)] at hb
      cases hb
    split at h
    · cases h
    · next ho =>
      rcases requireBytes_cases prog c .load (.load (loadOperand (progWord prog c 5))) with ⟨_, hr⟩ | ⟨hl, hr⟩ <;> rw [hr] at h
      · cases h
      · cases h; exact ⟨b, hb, ho, rfl, hl, loadOperandFits_loadOperand _⟩
    · next ho => cases h; exact ⟨b, hb, ho, rfl, hc, rfl⟩
    · next ho =>
      rcases requireBytes_cases prog c .write (.write (writeOperand (progWord prog c 3))) with ⟨_, hr⟩ | ⟨hl, hr⟩ <;> rw [hr] at h
      · cases h
      · cases h; exact ⟨b, hb, ho, rfl, hl, writeOperandFits_writeOperand _⟩
    · next ho => cases h; exact ⟨b, hb, ho, rfl, hc, rfl⟩

/-- An `UnknownOpcode` answer carries the cursor and the low 7 bits of a first byte that selects no opcode. -/
theorem decode_unknown {prog : List Byte} {c k : Nat} {r : BitVec 7} (h : decode prog c = .unknownOpcode r k) :
    ∃ b, prog[c]? = some b ∧ opcodeOf (low7 b) = none ∧ r = low7 b ∧ k = c := by
  cases hb : prog[c]? with
  | none => simp [decode, hb] at h
  | some b =>
    cases ho : opcodeOf (low7 b) with
    | none =>
      rw [decode_of_no_opcode hb ho] at h
      cases h
      exact ⟨b, rfl, ho, rfl, rfl⟩
    | some op =>
      simp only [decode, hb, ho] at h
      cases op <;> simp only [requireBytes] at h <;> first | cases h | (split at h <;> cases h)

/-- A `TruncatedInstruction` answer carries the cursor and the opcode of a first byte with too few bytes left. -/
theorem decode_truncated {prog : List Byte} {c k : Nat} {v : BitVec 7} (h : decode prog c = .truncatedInstruction v k) :
    ∃ b op, prog[c]? = some b ∧ opcodeOf (low7 b) = some op ∧ v = op.value ∧ k = c ∧ (op = .load ∨ op = .write) ∧
      prog.length < c + op.length := by
  cases hb : prog[c]? with
  | none => simp [decode, hb] at h
  | some b =>
    cases ho : opcodeOf (low7 b) with
    | none => rw [decode_of_no_opcode hb ho] at h; cases h
    | some op =>
      cases op with
      | load =>
        rw [decode_of_load hb ho] at h
        rcases requireBytes_cases prog c .load (.load (loadOperand (progWord prog c 5))) with ⟨hl, hr⟩ | ⟨_, hr⟩ <;>
          rw [hr] at h <;> cases h
        exact ⟨b, .load, rfl, ho, rfl, rfl, .inl rfl, hl⟩
      | read => rw [decode_of_read hb ho] at h; cases h
      | write =>
        rw [decode_of_write hb ho] at h
        rcases requireBytes_cases prog c .write (.write (writeOperand (progWord prog c 3))) with ⟨hl, hr⟩ | ⟨_, hr⟩ <;>
          rw [hr] at h <;> cases h
        exact ⟨b, .write, rfl, ho, rfl, rfl, .inr rfl, hl⟩
      | bswap => rw [decode_of_bswap hb ho] at h; cases h

theorem decode_outside_iff (prog : List Byte) (c k : Nat) :
    decode prog c = .outsideProgram k ↔ prog.length ≤ c ∧ k = c := by
  constructor
  · intro h
    cases hb : prog[c]? with
    | none =>
      have : decode prog c = .outsideProgram c := by simp [decode, hb]
      rw [this] at h
      cases h
      exact ⟨List.getElem?_eq_none_iff.mp hb, rfl⟩
    | some b =>
      cases ho : opcodeOf (low7 b) with
      | none => rw [decode_of_no_opcode hb ho] at h; cases h
      | some op =>
        simp only [decode, hb, ho] at h
        cases op <;> simp only [requireBytes] at h <;> first | cases h | (split at h <;> cases h)
  · rintro ⟨h, rfl⟩
    exact decode_outside h

/-! ## The encoder's words -/

theorem packWord_eq (op : Opcode) (v : Nat) : packWord op v = op.value.toNat + 2 ^ 7 * v := by
  rw [packWord, Nat.or_comm, ← Nat.shiftLeft_add_eq_or_of_lt (by cases op <;> decide), Nat.shiftLeft_eq]
  omega

theorem packWord_load (v : Nat) : packWord .load v = 57 + 128 * v := packWord_eq .load v

theorem packWord_write (v : Nat) : packWord .write v = 112 + 128 * v := packWord_eq .write v

end Sys2Proof
end

