-- ==== Sys2Proof/Laws/State.lean ====
section
/-! SUPPORT. One lemma per field per update of the state, true by rfl, so that no proof unfolds a record update. -/

namespace Sys2Proof.Machine

@[simp] theorem State.setAcc_acc (s : State) (v : Word) : (s.setAcc v).acc = v := rfl
@[simp] theorem State.setAcc_pc (s : State) (v : Word) : (s.setAcc v).pc = s.pc := rfl
@[simp] theorem State.setAcc_mem (s : State) (v : Word) : (s.setAcc v).mem = s.mem := rfl
@[simp] theorem State.setAcc_status (s : State) (v : Word) : (s.setAcc v).status = s.status := rfl
@[simp] theorem State.setAcc_fault (s : State) (v : Word) : (s.setAcc v).fault = s.fault := rfl
@[simp] theorem State.setAcc_prog (s : State) (v : Word) : (s.setAcc v).prog = s.prog := rfl

@[simp] theorem State.advance_acc (s : State) (n : Nat) : (s.advance n).acc = s.acc := rfl
@[simp] theorem State.advance_pc (s : State) (n : Nat) : (s.advance n).pc = n := rfl
@[simp] theorem State.advance_mem (s : State) (n : Nat) : (s.advance n).mem = s.mem := rfl
@[simp] theorem State.advance_status (s : State) (n : Nat) : (s.advance n).status = s.status := rfl
@[simp] theorem State.advance_fault (s : State) (n : Nat) : (s.advance n).fault = s.fault := rfl
@[simp] theorem State.advance_prog (s : State) (n : Nat) : (s.advance n).prog = s.prog := rfl

@[simp] theorem State.memWrite_acc (s : State) (a v : Word) : (s.memWrite a v).acc = s.acc := rfl
@[simp] theorem State.memWrite_pc (s : State) (a v : Word) : (s.memWrite a v).pc = s.pc := rfl
@[simp] theorem State.memWrite_mem (s : State) (a v : Word) : (s.memWrite a v).mem = s.mem.write a.toNat v := rfl
@[simp] theorem State.memWrite_status (s : State) (a v : Word) : (s.memWrite a v).status = s.status := rfl
@[simp] theorem State.memWrite_fault (s : State) (a v : Word) : (s.memWrite a v).fault = s.fault := rfl
@[simp] theorem State.memWrite_prog (s : State) (a v : Word) : (s.memWrite a v).prog = s.prog := rfl

@[simp] theorem State.halt_acc (s : State) : s.halt.acc = s.acc := rfl
@[simp] theorem State.halt_pc (s : State) : s.halt.pc = s.pc := rfl
@[simp] theorem State.halt_mem (s : State) : s.halt.mem = s.mem := rfl
@[simp] theorem State.halt_status (s : State) : s.halt.status = .halted := rfl
@[simp] theorem State.halt_fault (s : State) : s.halt.fault = s.fault := rfl
@[simp] theorem State.halt_prog (s : State) : s.halt.prog = s.prog := rfl

@[simp] theorem State.raise_acc (s : State) (f : Fault) : (s.raise f).acc = s.acc := rfl
@[simp] theorem State.raise_pc (s : State) (f : Fault) : (s.raise f).pc = s.pc := rfl
@[simp] theorem State.raise_mem (s : State) (f : Fault) : (s.raise f).mem = s.mem := rfl
@[simp] theorem State.raise_status (s : State) (f : Fault) : (s.raise f).status = .faulted := rfl
@[simp] theorem State.raise_fault (s : State) (f : Fault) : (s.raise f).fault = some f := rfl
@[simp] theorem State.raise_prog (s : State) (f : Fault) : (s.raise f).prog = s.prog := rfl

@[simp] theorem State.reset_acc : State.reset.acc = 0 := rfl
@[simp] theorem State.reset_pc : State.reset.pc = 0 := rfl
@[simp] theorem State.reset_mem : State.reset.mem = [] := rfl
@[simp] theorem State.reset_status : State.reset.status = .running := rfl
@[simp] theorem State.reset_fault : State.reset.fault = none := rfl
@[simp] theorem State.reset_prog : State.reset.prog = [] := rfl

@[simp] theorem State.startRun_acc (prog : List Byte) : (State.startRun prog).acc = 0 := rfl
@[simp] theorem State.startRun_pc (prog : List Byte) : (State.startRun prog).pc = 0 := rfl
@[simp] theorem State.startRun_mem (prog : List Byte) : (State.startRun prog).mem = [] := rfl
@[simp] theorem State.startRun_status (prog : List Byte) : (State.startRun prog).status = .running := rfl
@[simp] theorem State.startRun_fault (prog : List Byte) : (State.startRun prog).fault = none := rfl
@[simp] theorem State.startRun_prog (prog : List Byte) : (State.startRun prog).prog = prog := rfl

theorem State.startRun_nil : State.startRun [] = State.reset := rfl

/-- Two states are equal when their fields are. -/
theorem State.ext_fields {s t : State} (hacc : s.acc = t.acc) (hpc : s.pc = t.pc) (hmem : s.mem = t.mem)
    (hstatus : s.status = t.status) (hfault : s.fault = t.fault) (hprog : s.prog = t.prog) : s = t := by
  cases s; cases t; simp_all

end Sys2Proof.Machine
end

