-- ==== Sys2Proof/Laws/Exec.lean ====
section
/-! SUPPORT. Everything each meaning can do, said once. -/

namespace Sys2Proof.Machine

theorem addressInRange_iff (a : Word) : addressInRange a = true ↔ a.toNat ≤ 65535 := by simp [addressInRange]

theorem exec_load (imm : Word) (s : State) : exec (.load imm) s = .next (s.setAcc imm) := rfl

theorem exec_bswap (s : State) : exec .bswap s = .next (s.setAcc (bswap32 s.acc)) := rfl

/-- `READ` loads the cell or takes the fault (R105). -/
theorem exec_read_cases (s : State) :
    (s.acc.toNat ≤ 65535 ∧ exec .read s = .next (s.setAcc (s.mem.read s.acc.toNat))) ∨
      (65535 < s.acc.toNat ∧ exec .read s = .next (s.raise (.memoryOutOfRange s.acc))) := by
  by_cases h : s.acc.toNat ≤ 65535
  · exact .inl ⟨h, by simp [exec, execRead, accIndirect, addressInRange, State.memRead, h]⟩
  · exact .inr ⟨by omega, by simp [exec, execRead, accIndirect, addressInRange, h]⟩

/-- `WRITE` stores the accumulator or, with a hand-built operand, takes the fault (R106, C3). -/
theorem exec_write_cases (addr : Word) (s : State) :
    (addr.toNat ≤ 65535 ∧ exec (.write addr) s = .next (s.memWrite addr s.acc)) ∨
      (65535 < addr.toNat ∧ exec (.write addr) s = .next (s.raise (.memoryOutOfRange addr))) := by
  by_cases h : addr.toNat ≤ 65535
  · exact .inl ⟨h, by simp [exec, execWrite, absolute, addressInRange, h]⟩
  · exact .inr ⟨by omega, by simp [exec, execWrite, absolute, addressInRange, h]⟩

/-- Everything a meaning can do when it answers a next state: write `ACC`, write one cell, or take `MemoryOutOfRange`. -/
theorem exec_cases {i : Instr} {s t : State} (h : exec i s = .next t) :
    (∃ imm, i = .load imm ∧ t = s.setAcc imm) ∨
      (i = .read ∧ s.acc.toNat ≤ 65535 ∧ t = s.setAcc (s.mem.read s.acc.toNat)) ∨
      (i = .read ∧ 65535 < s.acc.toNat ∧ t = s.raise (.memoryOutOfRange s.acc)) ∨
      (∃ addr, i = .write addr ∧ addr.toNat ≤ 65535 ∧ t = s.memWrite addr s.acc) ∨
      (∃ addr, i = .write addr ∧ 65535 < addr.toNat ∧ t = s.raise (.memoryOutOfRange addr)) ∨
      (i = .bswap ∧ t = s.setAcc (bswap32 s.acc)) := by
  cases i with
  | load imm => rw [exec_load] at h; cases h; exact .inl ⟨imm, rfl, rfl⟩
  | read =>
    rcases exec_read_cases s with ⟨ha, he⟩ | ⟨ha, he⟩ <;> rw [he] at h <;> cases h
    · exact .inr (.inl ⟨rfl, ha, rfl⟩)
    · exact .inr (.inr (.inl ⟨rfl, ha, rfl⟩))
  | write addr =>
    rcases exec_write_cases addr s with ⟨ha, he⟩ | ⟨ha, he⟩ <;> rw [he] at h <;> cases h
    · exact .inr (.inr (.inr (.inl ⟨addr, rfl, ha, rfl⟩)))
    · exact .inr (.inr (.inr (.inr (.inl ⟨addr, rfl, ha, rfl⟩))))
  | bswap => rw [exec_bswap] at h; cases h; exact .inr (.inr (.inr (.inr (.inr ⟨rfl, rfl⟩))))

end Sys2Proof.Machine
end

