-- ==== Sys2Proof/Laws/HostPort.lean ====
section
/-! SUPPORT. The list a snapshot walks, said once. -/

namespace Sys2Proof.Machine

@[simp] theorem snapshotFrom_length (m : Memory) (a n : Nat) : (snapshotFrom m a n).length = n := by
  induction n generalizing a with
  | zero => rfl
  | succ n ih => simp [snapshotFrom, ih]

theorem snapshotFrom_getElem? (m : Memory) (a n k : Nat) (h : k < n) :
    (snapshotFrom m a n)[k]? = some (a + k, m.read (a + k)) := by
  induction n generalizing a k with
  | zero => omega
  | succ n ih =>
    cases k with
    | zero => rfl
    | succ k =>
      rw [snapshotFrom, List.getElem?_cons_succ, ih (a + 1) k (by omega)]
      simp only [Nat.add_comm k 1, Nat.add_assoc]

end Sys2Proof.Machine
end

