-- ==== Sys2Proof/Laws/Memory.lean ====
section
/-! SUPPORT. The laws of the data memory: read after write, and the canonical form every operation keeps (R30 to R33). -/

namespace Sys2Proof.Machine

@[simp] theorem Memory.read_nil (a : Nat) : Memory.read [] a = 0 := rfl

theorem Memory.read_clearCell (m : Memory) (a b : Nat) : (m.clearCell a).read b = if b = a then 0 else m.read b := by
  induction m with
  | nil => simp [Memory.clearCell, Memory.read, Memory.unlisted]
  | cons p m ih =>
    obtain ⟨k, w⟩ := p
    by_cases hka : k = a
    · subst hka
      by_cases hb : b = k
      · subst hb; simpa [Memory.clearCell] using ih
      · simp [Memory.clearCell, Memory.read, ih, hb, Ne.symm hb]
    · by_cases hb : b = a
      · subst hb; simp [Memory.clearCell, Memory.read, hka, ih]
      · simp [Memory.clearCell, Memory.read, hka, ih, hb]

theorem Memory.clearCell_length_le (m : Memory) (a : Nat) : (m.clearCell a).length ≤ m.length := by
  induction m with
  | nil => exact Nat.le_refl _
  | cons p m ih =>
    obtain ⟨k, w⟩ := p
    unfold Memory.clearCell
    split
    · exact ih.trans (Nat.le_succ _)
    · exact Nat.succ_le_succ ih

theorem Memory.read_putCell (m : Memory) (a b : Nat) (v : Word) (ha : m.clearCell a = m) :
    (m.putCell a v).read b = if b = a then v else m.read b := by
  induction m with
  | nil => simp [Memory.putCell, Memory.read, Memory.unlisted, eq_comm]
  | cons p m ih =>
    obtain ⟨k, w⟩ := p
    have hk : k ≠ a := by
      rintro rfl
      have hlen := congrArg List.length ha
      have hle := Memory.clearCell_length_le m k
      simp only [Memory.clearCell, if_true, List.length_cons] at hlen
      omega
    have hm : Memory.clearCell m a = m := by simpa [Memory.clearCell, hk] using ha
    by_cases hak : a < k
    · simp [Memory.putCell, hak, Memory.read, eq_comm]
    · by_cases hb : b = a
      · subst hb; simp [Memory.putCell, hak, Memory.read, hk, ih hm]
      · simp [Memory.putCell, hak, Memory.read, ih hm, hb]

theorem Memory.clearCell_clearCell (m : Memory) (a : Nat) : (m.clearCell a).clearCell a = m.clearCell a := by
  induction m with
  | nil => rfl
  | cons p m ih =>
    obtain ⟨k, w⟩ := p
    by_cases hk : k = a <;> simp [Memory.clearCell, hk, ih]

/-- One read after one write, at any two addresses, in any memory (R32, R33, R42). -/
theorem Memory.read_write (m : Memory) (a b : Nat) (v : Word) :
    (m.write a v).read b = if b = a then v else m.read b := by
  unfold Memory.write
  split
  · next h => rw [Memory.read_clearCell, h]; rfl
  · rw [Memory.read_putCell _ _ _ _ (Memory.clearCell_clearCell m a), Memory.read_clearCell]
    split <;> rfl

theorem Memory.read_write_same (m : Memory) (a : Nat) (v : Word) : (m.write a v).read a = v := by
  simp [Memory.read_write]

theorem Memory.read_write_other (m : Memory) {a b : Nat} (v : Word) (h : b ≠ a) : (m.write a v).read b = m.read b := by
  simp [Memory.read_write, h]

/-! ## The canonical form -/

theorem Memory.wfFrom_cons (lo k : Nat) (w : Word) (m : Memory) :
    Memory.wfFrom lo ((k, w) :: m) = true ↔ lo ≤ k ∧ k < Config.memCells ∧ w ≠ 0 ∧ Memory.wfFrom (k + 1) m = true := by
  simp only [Memory.wfFrom, Memory.unlisted, Bool.and_eq_true, decide_eq_true_eq, bne_iff_ne, ne_eq, and_assoc]

theorem Memory.wfFrom_mono {lo lo' : Nat} (h : lo ≤ lo') {m : Memory} (hm : Memory.wfFrom lo' m = true) :
    Memory.wfFrom lo m = true := by
  cases m with
  | nil => rfl
  | cons p m =>
    obtain ⟨k, w⟩ := p
    rw [Memory.wfFrom_cons] at hm ⊢
    exact ⟨h.trans hm.1, hm.2⟩

theorem Memory.wfFrom_clearCell {lo : Nat} {m : Memory} (a : Nat) (hm : Memory.wfFrom lo m = true) :
    Memory.wfFrom lo (m.clearCell a) = true := by
  induction m generalizing lo with
  | nil => rfl
  | cons p m ih =>
    obtain ⟨k, w⟩ := p
    obtain ⟨hlo, hk, hw, hm⟩ := (Memory.wfFrom_cons lo k w m).mp hm
    unfold Memory.clearCell
    split
    · exact ih (Memory.wfFrom_mono (by omega) hm)
    · exact (Memory.wfFrom_cons _ _ _ _).mpr ⟨hlo, hk, hw, ih hm⟩

theorem Memory.wfFrom_putCell {lo a : Nat} {v : Word} {m : Memory} (hlo : lo ≤ a) (ha : a < Config.memCells) (hv : v ≠ 0)
    (hm : Memory.wfFrom lo m = true) (he : m.clearCell a = m) : Memory.wfFrom lo (m.putCell a v) = true := by
  induction m generalizing lo with
  | nil => exact (Memory.wfFrom_cons _ _ _ _).mpr ⟨hlo, ha, hv, rfl⟩
  | cons p m ih =>
    obtain ⟨k, w⟩ := p
    obtain ⟨hk, hk', hw, hm⟩ := (Memory.wfFrom_cons lo k w m).mp hm
    have hne : k ≠ a := by
      rintro rfl
      have h := Memory.read_clearCell ((k, w) :: m) k k
      rw [he] at h
      simp [Memory.read] at h
      exact hw h
    have he' : Memory.clearCell m a = m := by simpa [Memory.clearCell, hne] using he
    unfold Memory.putCell
    split
    · next hlt =>
      exact (Memory.wfFrom_cons _ _ _ _).mpr ⟨hlo, ha, hv, (Memory.wfFrom_cons _ _ _ _).mpr ⟨hlt, hk', hw, hm⟩⟩
    · exact (Memory.wfFrom_cons _ _ _ _).mpr ⟨hk, hk', hw, ih (by omega) hm he'⟩

/-- A write to an existing cell keeps the canonical form. -/
theorem Memory.wf_write {m : Memory} {a : Nat} (v : Word) (ha : a < Config.memCells) (hm : m.wf = true) :
    (m.write a v).wf = true := by
  unfold Memory.wf Memory.write at *
  split
  · exact Memory.wfFrom_clearCell a hm
  · next hv =>
    exact Memory.wfFrom_putCell (Nat.zero_le a) ha hv (Memory.wfFrom_clearCell a hm) (Memory.clearCell_clearCell m a)

theorem Memory.wf_reset : State.reset.mem.wf = true := rfl

theorem Memory.read_below {lo a : Nat} {m : Memory} (hm : Memory.wfFrom lo m = true) (ha : a < lo) : m.read a = 0 := by
  induction m generalizing lo with
  | nil => rfl
  | cons p m ih =>
    obtain ⟨k, w⟩ := p
    obtain ⟨hk, _, _, hm⟩ := (Memory.wfFrom_cons lo k w m).mp hm
    rw [Memory.read, if_neg (by omega)]
    exact ih hm (by omega)

/-- Memories in canonical form that read the same everywhere are the same list. -/
theorem Memory.eq_of_read {m m' : Memory} {lo : Nat} (hm : Memory.wfFrom lo m = true) (hm' : Memory.wfFrom lo m' = true)
    (h : ∀ a, m.read a = m'.read a) : m = m' := by
  induction m generalizing lo m' with
  | nil =>
    cases m' with
    | nil => rfl
    | cons p m' =>
      obtain ⟨k, w⟩ := p
      have hw := ((Memory.wfFrom_cons lo k w m').mp hm').2.2.1
      have := h k
      simp [Memory.read] at this
      exact absurd this.symm hw
  | cons p m ih =>
    obtain ⟨k, w⟩ := p
    obtain ⟨_, _, hw, hk⟩ := (Memory.wfFrom_cons lo k w m).mp hm
    cases m' with
    | nil =>
      have := h k
      simp [Memory.read] at this
      exact absurd this hw
    | cons p' m' =>
      obtain ⟨j, u⟩ := p'
      obtain ⟨_, _, hu, hj⟩ := (Memory.wfFrom_cons lo j u m').mp hm'
      have hkj : k = j := by
        rcases Nat.lt_trichotomy k j with hlt | heq | hgt
        · have := h k
          rw [Memory.read, if_pos rfl, Memory.read, if_neg (by omega), Memory.read_below hj (by omega)] at this
          exact absurd this hw
        · exact heq
        · have := h j
          rw [Memory.read, if_neg (by omega), Memory.read_below hk (by omega), Memory.read, if_pos rfl] at this
          exact absurd this.symm hu
      subst hkj
      have hwu : w = u := by simpa [Memory.read] using h k
      subst hwu
      rw [ih hk hj fun a => ?_]
      by_cases ha : a = k
      · rw [ha, Memory.read_below hk (by omega), Memory.read_below hj (by omega)]
      · simpa [Memory.read, Ne.symm ha] using h a

end Sys2Proof.Machine
end

