-- ==== Sys2Proof/Laws/PerInstr.lean ====
section
/-! SUPPORT. Facts of every instruction as syntax, one lemma per constructor. -/

namespace Sys2Proof.Laws

/-- The encoding has the opcode's length (R50, R55). -/
def EncodeLength.Statement (i : Instr) : Prop := (encode i).length = i.length

theorem EncodeLength.load (imm : Word) : EncodeLength.Statement (.load imm) := leBytes_length _ _
theorem EncodeLength.read : EncodeLength.Statement .read := leBytes_length _ _
theorem EncodeLength.write (addr : Word) : EncodeLength.Statement (.write addr) := leBytes_length _ _
theorem EncodeLength.bswap : EncodeLength.Statement .bswap := leBytes_length _ _

/-- The low 7 bits of the first encoded byte are the opcode, whatever the operand (R50, R54). -/
def FirstByteOpcode.Statement (i : Instr) : Prop := ((encode i)[0]?).map low7 = some i.opcode.value

theorem low7_packWord (op : Opcode) (v : Nat) : low7 (BitVec.ofNat 8 (packWord op v)) = op.value := by
  apply BitVec.eq_of_toNat_eq
  have h : op.value.toNat < 128 := op.value.isLt
  rw [low7_toNat, packWord_eq, BitVec.toNat_ofNat]
  omega

theorem FirstByteOpcode.load (imm : Word) : FirstByteOpcode.Statement (.load imm) :=
  congrArg some (low7_packWord .load imm.toNat)
theorem FirstByteOpcode.read : FirstByteOpcode.Statement .read := congrArg some (low7_packWord .read 0)
theorem FirstByteOpcode.write (addr : Word) : FirstByteOpcode.Statement (.write addr) :=
  congrArg some (low7_packWord .write addr.toNat)
theorem FirstByteOpcode.bswap : FirstByteOpcode.Statement .bswap := congrArg some (low7_packWord .bswap 0)

end Sys2Proof.Laws
end

