-- ==== Sys2Proof/Laws/Step.lean ====
section
/-! SUPPORT. The branches of a step, one equation each, and the inversion that later proofs cite instead of unfolding it. -/

namespace Sys2Proof.Machine

theorem step_ended {s : State} (h : s.status ≠ .running) : step s = .next s := by
  unfold step loopTurn
  split
  · contradiction
  · rfl
  · rfl

theorem step_atEnd {s : State} (hr : s.status = .running) (h : s.prog.length ≤ s.pc) : step s = .next s.halt := by
  simp [step, loopTurn, runningTurn, hr, h]

theorem step_decoded {s : State} {i : Instr} {n : Nat} (hr : s.status = .running) (h : s.pc < s.prog.length)
    (hd : decode s.prog s.pc = .instr i n) : step s = exec i (s.advance n) := by
  simp [step, loopTurn, runningTurn, hr, hd, Nat.not_le.mpr h]

theorem step_unknown {s : State} {r : BitVec 7} {k : Nat} (hr : s.status = .running) (h : s.pc < s.prog.length)
    (hd : decode s.prog s.pc = .unknownOpcode r k) : step s = .next (s.raise (.unknownOpcode r k)) := by
  simp [step, loopTurn, runningTurn, hr, hd, Nat.not_le.mpr h]

theorem step_truncated {s : State} {v : BitVec 7} {k : Nat} (hr : s.status = .running) (h : s.pc < s.prog.length)
    (hd : decode s.prog s.pc = .truncatedInstruction v k) : step s = .next (s.raise (.truncatedInstruction v k)) := by
  simp [step, loopTurn, runningTurn, hr, hd, Nat.not_le.mpr h]

/-- Everything a step can do when it answers a next state. -/
theorem step_cases {s t : State} (h : step s = .next t) :
    (s.status ≠ .running ∧ t = s) ∨
      (s.status = .running ∧ s.prog.length ≤ s.pc ∧ t = s.halt) ∨
      (s.status = .running ∧ s.pc < s.prog.length ∧
        ((∃ r k, decode s.prog s.pc = .unknownOpcode r k ∧ t = s.raise (.unknownOpcode r k)) ∨
          (∃ v k, decode s.prog s.pc = .truncatedInstruction v k ∧ t = s.raise (.truncatedInstruction v k)) ∨
          (∃ i n, decode s.prog s.pc = .instr i n ∧ exec i (s.advance n) = .next t))) := by
  by_cases hr : s.status = .running
  · by_cases hp : s.prog.length ≤ s.pc
    · rw [step_atEnd hr hp] at h
      cases h
      exact .inr (.inl ⟨hr, hp, rfl⟩)
    · have hlt : s.pc < s.prog.length := by omega
      refine .inr (.inr ⟨hr, hlt, ?_⟩)
      cases hd : decode s.prog s.pc with
      | instr i n => exact .inr (.inr ⟨i, n, rfl, (step_decoded hr hlt hd).symm.trans h⟩)
      | unknownOpcode r k =>
        rw [step_unknown hr hlt hd] at h
        cases h
        exact .inl ⟨r, k, rfl, rfl⟩
      | truncatedInstruction v k =>
        rw [step_truncated hr hlt hd] at h
        cases h
        exact .inr (.inl ⟨v, k, rfl, rfl⟩)
      | outsideProgram k => exact absurd ((decode_outside_iff _ _ _).mp hd).1 hp
  · rw [step_ended hr] at h
    cases h
    exact .inl ⟨hr, rfl⟩

/-! ## Runs of several steps -/

theorem run_zero (s : State) : Sys2Proof.core.run 0 s = .next s := rfl

theorem run_succ {s t : State} (k : Nat) (h : step s = .next t) : Sys2Proof.core.run (k + 1) s = Sys2Proof.core.run k t := by
  have h' : Sys2Proof.core.step s = .next t := h
  simp only [Host.Core.run, h']

/-! ## The placed word -/

@[simp] theorem State.withFetchWord_acc (s : State) (n w : Nat) : (s.withFetchWord n w).acc = s.acc := rfl
@[simp] theorem State.withFetchWord_pc (s : State) (n w : Nat) : (s.withFetchWord n w).pc = s.pc := rfl
@[simp] theorem State.withFetchWord_mem (s : State) (n w : Nat) : (s.withFetchWord n w).mem = s.mem := rfl
@[simp] theorem State.withFetchWord_status (s : State) (n w : Nat) : (s.withFetchWord n w).status = .running := rfl
@[simp] theorem State.withFetchWord_fault (s : State) (n w : Nat) : (s.withFetchWord n w).fault = none := rfl
@[simp] theorem State.withFetchWord_prog (s : State) (n w : Nat) :
    (s.withFetchWord n w).prog = placeBytes s.prog s.pc (tableBytes n w) := rfl

end Sys2Proof.Machine
end

