-- ==== Sys2Proof/Laws/Run.lean ====
section
/-! SUPPORT. Runs of several steps: composition, and the one induction every whole-run fact goes through. -/

namespace Sys2Proof.Machine

/-- A run of j + k steps is a run of j and then of k. -/
theorem run_add {s t : State} {j : Nat} (k : Nat) (h : Sys2Proof.core.run j s = .next t) :
    Sys2Proof.core.run (j + k) s = Sys2Proof.core.run k t := by
  induction j generalizing s with
  | zero => rw [run_zero] at h; cases h; rw [Nat.zero_add]
  | succ j ih =>
    cases hs : step s with
    | next u =>
      rw [Nat.add_right_comm, run_succ _ hs]
      exact ih (by rwa [run_succ _ hs] at h)
    | fault r =>
      have hs' : Sys2Proof.core.step s = .fault r := hs
      simp [Host.Core.run, hs'] at h
    | refused r =>
      have hs' : Sys2Proof.core.step s = .refused r := hs
      simp [Host.Core.run, hs'] at h

/-- What holds at the start and is kept by every step holds after any number of steps. -/
theorem run_induction {P : State → Prop} (hstep : ∀ s t, P s → step s = .next t → P t) {k : Nat} {s t : State}
    (h0 : P s) (h : Sys2Proof.core.run k s = .next t) : P t := by
  induction k generalizing s with
  | zero => rw [run_zero] at h; cases h; exact h0
  | succ k ih =>
    cases hs : step s with
    | next u => exact ih (hstep s u h0 hs) (by rwa [run_succ _ hs] at h)
    | fault r =>
      have hs' : Sys2Proof.core.step s = .fault r := hs
      simp [Host.Core.run, hs'] at h
    | refused r =>
      have hs' : Sys2Proof.core.step s = .refused r := hs
      simp [Host.Core.run, hs'] at h

theorem applyInstr_running {i : Instr} {s : State} (h : s.status = .running) :
    applyInstr i s = exec i (s.advance (s.pc + i.length)) := by
  simp [applyInstr, h]

theorem applyInstr_ended {i : Instr} {s : State} (h : s.status ≠ .running) : applyInstr i s = .next s := by
  unfold applyInstr
  split
  · contradiction
  · rfl
  · rfl

theorem applyAll_cons {i : Instr} {is : List Instr} {s t : State} (h : applyInstr i s = .next t) :
    applyAll (i :: is) s = applyAll is t := by
  simp [applyAll, h]

end Sys2Proof.Machine
end

