-- ==== Sys2Proof/Laws/Toolchain.lean ====
section
/-! SUPPORT. What the Range Validator and the Encoder can answer, said once. -/

namespace Sys2Proof.Machine

/-- The Range Validator answers the operand or the range error (R67). -/
theorem validateOperand_cases (op : Opcode) (v : Int) :
    ((0 ≤ v ∧ v < declaredBound op) ∧ validateOperand op v = .ok (BitVec.ofNat 32 v.toNat)) ∨
      (¬(0 ≤ v ∧ v < declaredBound op) ∧ validateOperand op v = .error (.operandOutOfRange op v)) := by
  by_cases h : 0 ≤ v ∧ v < declaredBound op
  · exact .inl ⟨h, by simp only [validateOperand, if_pos h]⟩
  · exact .inr ⟨h, by simp only [validateOperand, if_neg h]⟩

/-- Everything a validated opcode and operand can be (R64 to R67). -/
theorem checkInstr_ok {op : Opcode} {v : Option Int} {i : Instr} (h : checkInstr op v = .ok i) :
    (∃ n : Nat, op = .load ∧ v = some (n : Int) ∧ n < 2 ^ 31 ∧ i = .load (BitVec.ofNat 32 n)) ∨
      (op = .read ∧ v = none ∧ i = .read) ∨
      (∃ n : Nat, op = .write ∧ v = some (n : Int) ∧ n < 4096 ∧ i = .write (BitVec.ofNat 32 n)) ∨
      (op = .bswap ∧ v = none ∧ i = .bswap) := by
  cases op <;> cases v with
  | none => simp only [checkInstr] at h; cases h <;> simp
  | some v =>
    simp only [checkInstr] at h
    first
    | cases h
    | (rcases validateOperand_cases _ v with ⟨⟨hlo, hhi⟩, hv⟩ | ⟨_, hv⟩ <;> rw [hv] at h <;> cases h
       obtain ⟨n, rfl⟩ := Int.eq_ofNat_of_zero_le hlo
       simp only [declaredBound] at hhi
       first
       | exact .inl ⟨n, rfl, rfl, by omega, rfl⟩
       | exact .inr (.inr (.inl ⟨n, rfl, rfl, by omega, rfl⟩)))

/-- The bytes of a validated opcode and operand are the encoding of its instruction. -/
theorem encodeChecked_ok {op : Opcode} {v : Option Int} {bytes : List Byte} (h : encodeChecked op v = .ok bytes) :
    ∃ i, checkInstr op v = .ok i ∧ bytes = encode i := by
  unfold encodeChecked at h
  cases hc : checkInstr op v with
  | error e => rw [hc] at h; cases h
  | ok i => rw [hc] at h; cases h; exact ⟨i, rfl, rfl⟩

/-- A validated instruction is well formed (the declared range lies inside the structural one, C7). -/
theorem checkInstr_wellFormed {op : Opcode} {v : Option Int} {i : Instr} (h : checkInstr op v = .ok i) :
    i.wellFormed = true := by
  rcases checkInstr_ok h with ⟨n, -, -, hn, rfl⟩ | ⟨-, -, rfl⟩ | ⟨n, -, -, hn, rfl⟩ | ⟨-, -, rfl⟩
  · simp only [Instr.wellFormed, loadOperandFits, BitVec.toNat_ofNat, decide_eq_true_eq]
    omega
  · rfl
  · simp only [Instr.wellFormed, writeOperandFits, BitVec.toNat_ofNat, decide_eq_true_eq]
    omega
  · rfl

/-- A valid row is a known mnemonic with a valid operand (R70). -/
theorem rowInstr_ok {r : Row} {i : Instr} (h : rowInstr r = .ok i) :
    ∃ op, mnemonicOpcode r.opcode = some op ∧ checkInstr op r.operand = .ok i := by
  unfold rowInstr at h
  split at h
  · cases h
  · next op ho => exact ⟨op, ho, h⟩

end Sys2Proof.Machine
end

