-- ==== Sys2Proof/Tests/Slice0.lean ====
section
/-! SUPPORT. Tests: expected values from the spec's encodings and vectors (95_test_vectors.md), and a witness for the hypotheses of
every statement of Sys2Proof/Certificates/Slice0/Obligations.lean that has some. -/

namespace Sys2Proof.Tests

open Sys2Proof.Machine

/-- The next state of an outcome, to compare it by decide. -/
def nextOf : Host.Outcome State Fault Refusal → Option State
  | .next s => some s
  | .fault _ => none
  | .refused _ => none

/-- A state of a run: a program, `PC` and `ACC`, all else as after reset. -/
def at_ (prog : List Byte) (pc : Nat) (acc : Word) : State := { State.startRun prog with pc := pc, acc := acc }

/-- A state whose run ended in a given status and record. -/
def ended (status : Status) (fault : Option Fault) (prog : List Byte) (pc : Nat) (acc : Word) : State :=
  { at_ prog pc acc with status := status, fault := fault }

/-! ## WellFormed refuses an ill-formed term for each check (R56, R57) -/

theorem test_wf_refuses_load_2_31 : Instr.wellFormed (.load 0x80000000) = false := by decide
theorem test_wf_accepts_load_max : Instr.wellFormed (.load 0x7FFFFFFF) = true := by decide
theorem test_wf_refuses_write_8192 : Instr.wellFormed (.write 8192) = false := by decide
theorem test_wf_accepts_write_8191 : Instr.wellFormed (.write 8191) = true := by decide

/-! ## Decoding: words written out from R51 to R54, and the source's bytes (V1, T1 to T7) -/

theorem test_decode_load_500 : decode [0x39, 0xFA, 0x00, 0x00, 0x00] 0 = .instr (.load 500) 5 := by decide
theorem test_decode_load_bits :
    decodeTableWord 40 0b0000000000000000000000001111101000111001 = some (.load 500) := by decide
theorem test_decode_load_odd : decode [0xB9, 0x00, 0x00, 0x00, 0x00] 0 = .instr (.load 1) 5 := by decide
theorem test_decode_load_ignored : decode [0xB9, 0xFF, 0xFF, 0xFF, 0xFF] 0 = .instr (.load 0x7FFFFFFF) 5 := by decide
theorem test_decode_read : decode [0x66] 0 = .instr .read 1 ∧ decode [0xE6] 0 = .instr .read 1 := by decide
theorem test_decode_read_bits : decodeTableWord 8 0b01100110 = some .read := by decide
theorem test_decode_write_10 : decode [0x70, 0x05, 0x00] 0 = .instr (.write 10) 3 := by decide
theorem test_decode_write_bits : decodeTableWord 24 0b000000000000010101110000 = some (.write 10) := by decide
theorem test_decode_write_8191 : decode [0xF0, 0xFF, 0xFF] 0 = .instr (.write 8191) 3 := by decide
theorem test_decode_bswap : decode [0x05] 0 = .instr .bswap 1 ∧ decode [0x85] 0 = .instr .bswap 1 := by decide
theorem test_decode_bswap_bits : decodeTableWord 8 0b00000101 = some .bswap := by decide
theorem test_decode_unknown : decode [0x8D] 0 = .unknownOpcode 13 0 ∧ decode [0x66, 0x0D] 1 = .unknownOpcode 13 1 := by decide
theorem test_decode_truncated : decode [0x39, 0xFA, 0x00, 0x00] 0 = .truncatedInstruction 57 0 ∧
    decode [0x70, 0x05] 0 = .truncatedInstruction 112 0 := by decide
theorem test_decode_operand_bytes : decode [0x39, 0x66, 0x05, 0x70, 0x00] 0 = .instr (.load 0x00E00ACC) 5 := by decide

/-! ## Encoding (T1, T3) and the assembler (V5, R70) -/

theorem test_encode_load : encode (.load 0x12345678) = [0x39, 0x3C, 0x2B, 0x1A, 0x09] := by decide
theorem test_encode_write : encode (.write 4095) = [0xF0, 0xFF, 0x07] := by decide
theorem test_assemble_source_program :
    assemble [⟨['l', 'o', 'a', 'd'], some 500⟩, ⟨['W', 'R', 'I', 'T', 'E'], some 10⟩, ⟨['R', 'e', 'a', 'd'], none⟩,
      ⟨['B', 'S', 'W', 'A', 'P'], none⟩] = .ok [0x39, 0xFA, 0x00, 0x00, 0x00, 0x70, 0x05, 0x00, 0x66, 0x05] := by decide
theorem test_assemble_refuses_write_4096 :
    encodeChecked .write (some 4096) = .error (.operandOutOfRange .write 4096) := by decide

/-! ## One step each (T1 to T8, P3, P5) -/

theorem test_step_load :
    nextOf (step (at_ [0xB9, 0xFF, 0xFF, 0xFF, 0xFF] 0 9)) =
      some (at_ [0xB9, 0xFF, 0xFF, 0xFF, 0xFF] 5 0x7FFFFFFF) := by decide
theorem test_step_read :
    (nextOf (step { at_ [0x66] 0 5 with mem := [(5, 7)] })).map (fun t => (t.acc, t.pc)) = some (7, 1) := by decide
theorem test_step_read_out_of_range :
    nextOf (step (at_ [0x66] 0 65536)) = some (ended .faulted (some (.memoryOutOfRange 65536)) [0x66] 1 65536) := by decide
theorem test_step_write :
    (nextOf (step { at_ [0x70, 0x05, 0xF0] 0 500 with mem := [(3, 1), (20, 2)] })).map (fun t => (t.mem, t.acc, t.pc)) =
      some ([(3, 1), (10, 500), (20, 2)], 500, 3) := by decide
theorem test_step_write_zero_keeps_form :
    (nextOf (step { at_ [0x70, 0x05, 0x00] 0 0 with mem := [(3, 1), (10, 2)] })).map State.mem = some [(3, 1)] := by decide
theorem test_step_bswap : (nextOf (step (at_ [0x85] 0 0x12345678))).map State.acc = some 0x78563412 := by decide
theorem test_step_bswap_500 : (nextOf (step (at_ [0x05] 0 500))).map State.acc = some 0xF4010000 := by decide
theorem test_step_unknown :
    nextOf (step (at_ [0x66, 0x0D] 1 0)) = some (ended .faulted (some (.unknownOpcode 13 1)) [0x66, 0x0D] 1 0) := by decide
theorem test_step_truncated :
    nextOf (step (at_ [0x39] 0 0)) = some (ended .faulted (some (.truncatedInstruction 57 0)) [0x39] 0 0) := by decide
theorem test_step_placed_word :
    (nextOf (step (State.reset.withFetchWord 24 0x000570))).map (fun t => (t.pc, t.status)) = some (3, .running) := by decide
theorem test_snapshot_clips :
    snapshot { ended .halted none [] 0 0 with mem := [(10, 500)] } 65534 70000 = .entries [(65534, 0), (65535, 0)] := by decide
theorem test_snapshot_refused :
    snapshot (ended .faulted (some (.unknownOpcode 0 0)) [0] 0 0) 0 3 = .refused .faulted := by decide

/-! ## Witnesses: the hypotheses of the statements can be met, at boundary values -/

theorem test_witness_OneByteFormsIgnoreBit7 : low7 0xE6 = 102 ∧ low7 0x85 = 5 := by decide
theorem test_witness_WriteFieldLayout :
    low7 0xF0 = 112 ∧ encodeChecked .write (some 4095) = .ok [0xF0, 0xFF, 0x07] := by decide
theorem test_witness_LoadFieldLayout :
    low7 0xB9 = 57 ∧ encodeChecked .load (some 2147483647) = .ok [0xB9, 0xFF, 0xFF, 0xFF, 0x3F] := by decide
theorem test_witness_IllegalFirstBytesFault :
    ([0x66, 0x00] : List Byte)[1]? = some 0x00 ∧ (at_ [0x66, 0x00] 1 0).status = .running ∧
      (0x00 : Byte) ∉ ([0x05, 0x85, 0x39, 0xB9, 0x66, 0xE6, 0x70, 0xF0] : List Byte) ∧
      ([0xF0] : List Byte)[0]? = some 0xF0 := by decide
theorem test_witness_TruncationFaultsExactly :
    (at_ [0xB9, 0, 0, 0] 0 0).status = .running ∧ (at_ [0xB9, 0, 0, 0] 0 0).prog[0]? = some 0xB9 ∧ low7 0xB9 = 57 ∧
      (at_ [0xB9, 0, 0, 0] 0 0).prog.length < 0 + 5 ∧ (at_ [0x70, 0] 0 0).prog[0]? = some 0x70 ∧ low7 0x70 = 112 ∧
      (at_ [0x70, 0] 0 0).prog.length < 0 + 3 := by decide
theorem test_witness_IgnoredBitsDoNotMatter :
    low7 0xE6 = 102 ∧ low7 0x85 = 5 ∧ low7 0xF0 = 112 ∧ low7 0xB9 = 57 ∧ encodeChecked .read none = .ok [0x66] ∧
      encodeChecked .bswap none = .ok [0x05] ∧ encodeChecked .write (some 0) = .ok [0x70, 0, 0] ∧
      encodeChecked .load (some 0) = .ok [0x39, 0, 0, 0, 0] := by decide
theorem test_witness_DecodeEncodeRoundTrip :
    Instr.wellFormed (.load 0x7FFFFFFF) = true ∧ Instr.wellFormed (.write 8191) = true ∧ Instr.wellFormed .read = true ∧
      Instr.wellFormed .bswap = true := by decide
theorem test_witness_EncoderLoad :
    ¬(0 ≤ (-1 : Int) ∧ (-1 : Int) ≤ 2147483647) ∧ ¬(0 ≤ (2147483648 : Int) ∧ (2147483648 : Int) ≤ 2147483647) ∧
      2147483647 ≤ 2 ^ 31 - 1 := by decide
theorem test_witness_EncoderWrite :
    ¬(0 ≤ (-1 : Int) ∧ (-1 : Int) ≤ 4095) ∧ ¬(0 ≤ (4096 : Int) ∧ (4096 : Int) ≤ 4095) ∧ 4095 ≤ 4095 ∧ 4096 ≤ 8191 := by decide
theorem test_witness_EncoderDecoderRoundTrip :
    decode [0xE6] 0 = .instr .read 1 ∧ NonCanonical [0xE6] ∧ decode [0x70, 0x00, 0x08] 0 = .instr (.write 4096) 3 ∧
      NonCanonical [0x70, 0x00, 0x08] ∧ decode [0x39, 0, 0, 0, 0x40] 0 = .instr (.load 0) 5 ∧
      NonCanonical [0x39, 0, 0, 0, 0x40] := by
  refine ⟨by decide, by unfold NonCanonical; decide, by decide, by unfold NonCanonical; decide, by decide, by
    unfold NonCanonical; decide⟩
theorem test_witness_CanonicalExactly :
    decode [0xF0, 0xFF, 0x07] 0 = .instr (.write 4095) 3 ∧ encodeChecked .write (some 4095) = .ok [0xF0, 0xFF, 0x07] ∧
      low7 0xB9 = 57 ∧ low7 0xF0 = 112 ∧ 4096 ≤ 8191 := by decide
theorem test_witness_MnemonicsAnyCase :
    mnemonicOpcode ['N', 'O', 'P'] = none ∧ mnemonicOpcode ['b', 'S', 'w', 'A', 'p'] = some .bswap := by decide
theorem test_witness_AssembleListing :
    rowInstr ⟨['L', 'O', 'A', 'D'], some 1⟩ = .ok (.load 1) ∧
      rowInstr ⟨['W', 'R', 'I', 'T', 'E'], some 4096⟩ = .error (.operandOutOfRange .write 4096) := by decide
theorem test_witness_StepRunsDecodedInstruction :
    (at_ [0x66, 0xF0, 0xFF, 0x0F] 1 0).status = .running ∧ decode [0x66, 0xF0, 0xFF, 0x0F] 1 = .instr (.write 8191) 4 := by decide
theorem test_witness_EndedRunIsFrozen :
    (ended .halted none [0x66] 1 0).status ≠ .running ∧ (ended .faulted none [0x66] 1 0).status ≠ .running := by decide
theorem test_witness_NormalEndExactly :
    (at_ [0x66] 1 0).status = .running ∧ (at_ [0x66] 1 0).pc = (at_ [0x66] 1 0).prog.length ∧
      (at_ [0x66] 1 0).pc ≤ (at_ [0x66] 1 0).prog.length ∧
      (nextOf (step (at_ [0x66] 1 0))).map State.status = some .halted := by decide
theorem test_witness_EveryRunEnds :
    (nextOf (step (State.startRun [0x66]))).map (fun t => (t.status, t.pc)) = some (.running, 1) := by decide
theorem test_witness_ExecReadCompletes : (at_ [] 0 65535).acc.toNat ≤ 65535 := by decide
theorem test_witness_ExecWriteCompletes :
    (65535 : Word).toNat ≤ 65535 ∧ effectiveAddress (.write 65535) (at_ [] 0 0) = some 65535 := by decide
theorem test_witness_OutOfRangeAccessFaults :
    effectiveAddress .read (at_ [] 0 65536) = some 65536 ∧ effectiveAddress (.write 65536) (at_ [] 0 0) = some 65536 ∧
      65536 ≤ (65536 : Word).toNat ∧ (nextOf (exec .read (at_ [] 0 65536))).map State.status = some .faulted ∧
      (nextOf (exec .read (at_ [] 0 65535))).map State.status = some .running ∧
      decode [0xF0, 0xFF, 0x0F] 0 = .instr (.write 8191) 3 := by decide
theorem test_witness_LoadRule :
    (at_ [0xB9, 0, 0, 0, 0] 0 0).status = .running ∧ (at_ [0xB9, 0, 0, 0, 0] 0 0).prog[0]? = some 0xB9 ∧ low7 0xB9 = 57 ∧
      0 + 5 ≤ (at_ [0xB9, 0, 0, 0, 0] 0 0).prog.length ∧ (at_ [0xB9, 0, 0, 0] 0 0).prog.length < 0 + 5 := by decide
theorem test_witness_ReadRule :
    (at_ [0xE6] 0 65535).prog[0]? = some 0xE6 ∧ (at_ [0xE6] 0 65535).acc.toNat ≤ 65535 ∧
      65536 ≤ (at_ [0xE6] 0 65536).acc.toNat ∧ (at_ [0xE6] 0 65536).status = .running := by decide
theorem test_witness_WriteRule :
    (at_ [0x70, 0, 0] 0 0).status = .running ∧ (at_ [0x70, 0, 0] 0 0).prog[0]? = some 0x70 ∧ low7 0x70 = 112 ∧
      0 + 3 ≤ (at_ [0x70, 0, 0] 0 0).prog.length ∧ (at_ [0x70, 0] 0 0).prog.length < 0 + 3 := by decide
theorem test_witness_BswapRule :
    (at_ [0x85] 0 1).status = .running ∧ (at_ [0x85] 0 1).prog[0]? = some 0x85 ∧ (at_ [0x05] 0 1).prog[0]? = some 0x05 := by decide
theorem test_witness_BswapInvolution :
    (at_ [0x05, 0x85] 0 1).status = .running ∧ (at_ [0x05, 0x85] 0 1).prog[0]? = some 0x05 ∧
      (at_ [0x05, 0x85] 0 1).prog[0 + 1]? = some 0x85 ∧ low7 0x05 = 5 ∧ low7 0x85 = 5 := by decide
theorem test_witness_FrameOfRegisterInstructions :
    (nextOf (exec (.load 7) (at_ [] 0 0))).isSome ∧ (nextOf (exec .read (at_ [] 0 65535))).isSome ∧
      (nextOf (exec .read (at_ [] 0 65536))).isSome ∧ (nextOf (exec .bswap (at_ [] 0 1))).isSome := by decide
theorem test_witness_FrameOfWrite :
    (nextOf (exec (.write 65535) (at_ [] 0 1))).isSome ∧ (nextOf (exec (.write 65536) (at_ [] 0 1))).isSome := by decide
theorem test_witness_FaultsExactlyAsTabled :
    (at_ [0x66] 0 65536).status = .running ∧ (at_ [0x66] 0 65536).fault = none ∧
      (nextOf (step (at_ [0x66] 0 65536))).map State.fault = some (some (.memoryOutOfRange 65536)) ∧
      (nextOf (step (at_ [0x00] 0 0))).map State.fault = some (some (.unknownOpcode 0 0)) ∧
      (nextOf (step (at_ [0x70] 0 0))).map State.fault = some (some (.truncatedInstruction 112 0)) := by decide
theorem test_witness_FaultEntry :
    (at_ [0x66] 0 65536).status = .running ∧
      (nextOf (step (at_ [0x66] 0 65536))).map State.status = some .faulted ∧
      (nextOf (step (at_ [0x00] 0 0))).map State.status = some .faulted ∧
      (nextOf (step (at_ [0x70] 0 0))).map State.status = some .faulted := by decide
theorem test_witness_DecodedWriteNeverFaults :
    (at_ [0xF0, 0xFF, 0x0F] 0 1).status = .running ∧ decode [0xF0, 0xFF, 0x0F] 0 = .instr (.write 8191) 3 ∧
      (nextOf (step (at_ [0xF0, 0xFF, 0x0F] 0 1))).isSome := by decide
theorem test_witness_PcAdvancesByLength :
    (at_ [0x66] 0 0).prog[0]? = some 0x66 ∧ (nextOf (step (at_ [0x66] 0 0))).map State.pc = some 1 ∧
      (at_ [0x66] 0 0).pc ≤ (at_ [0x66] 0 0).prog.length := by decide
theorem test_witness_OnlyWriteChangesMemory :
    (nextOf (step (at_ [0x70, 0, 0] 0 1))).map (fun t => t.mem.read 0) = some 1 ∧ (at_ [0x70, 0, 0] 0 1).mem.read 0 = 0 ∧
      (at_ [0xF0, 0xFF, 0x0F] 0 1).status = .running ∧ decode [0xF0, 0xFF, 0x0F] 0 = .instr (.write 8191) 3 ∧
      (nextOf (step (at_ [0xF0, 0xFF, 0x0F] 0 1))).map State.mem = some [(8191, 1)] := by decide
theorem test_witness_OnlyThreeInstructionsChangeAcc :
    (nextOf (step (at_ [0x05] 0 1))).map State.acc = some 0x01000000 := by decide
theorem test_witness_ProgramStoreConstant :
    (nextOf (Sys2Proof.core.run 2 (at_ [0x66] 0 0))).map State.prog = some [0x66] := by decide
theorem test_witness_StepReadsOnlyItsFetchWindow :
    ([0x66, 1, 2, 3, 4, 5] : List Byte).length = (at_ [0x66, 1, 2, 3, 4, 9] 0 0).prog.length ∧
      (∀ j, j ≤ 4 → ([0x66, 1, 2, 3, 4, 5] : List Byte)[0 + j]? = (at_ [0x66, 1, 2, 3, 4, 9] 0 0).prog[0 + j]?) ∧
      (nextOf (step (at_ [0x66, 1, 2, 3, 4, 9] 0 0))).isSome := by decide
theorem test_witness_MemoryStaysCanonical :
    Memory.wf (at_ [0x70, 0, 0] 0 1).mem = true ∧ (nextOf (step (at_ [0x70, 0, 0] 0 1))).isSome := by decide
theorem test_witness_HighCellsStayZero : (at_ [0xF0, 0xFF, 0x0F] 0 1).HighCellsZero ∧
    (nextOf (step (at_ [0xF0, 0xFF, 0x0F] 0 1))).map State.mem = some [(8191, 1)] := ⟨fun _ _ => rfl, by decide⟩
theorem test_witness_InvariantKeptByEveryStep : (State.startRun [0xF0, 0xFF, 0x0F]).Inv ∧
    (nextOf (step (State.startRun [0xF0, 0xFF, 0x0F]))).map State.pc = some 3 := by
  refine ⟨⟨?_, rfl, fun _ _ => rfl, (fun h => nomatch h), fun h => nomatch h⟩, by decide⟩
  unfold State.PcInBounds
  decide
theorem test_witness_CellHoldsLatestWrite :
    (65535 : Word).toNat ≤ 65535 ∧ (at_ [] 0 7).status = .running ∧
      (∀ a, Instr.write a ∈ [Instr.write 3, Instr.read] → a ≠ 65535) ∧
      (nextOf (applyAll [.write 65535, .write 3, .read] (at_ [] 0 7))).isSome := by
  refine ⟨by decide, by decide, fun a h => ?_, by decide⟩
  simp at h
  subst h
  decide
theorem test_witness_EncodedInstructionsRunInOrder :
    (∀ i ∈ [Instr.load 1, Instr.write 8191], i.wellFormed = true) ∧
      (at_ ([0x66] ++ encodeAll [.load 1, .write 8191] ++ [0x00]) 1 0).pc = ([0x66] : List Byte).length := by decide
theorem test_witness_AssembledListingRuns :
    assemble [⟨['L', 'O', 'A', 'D'], some 1⟩, ⟨['R', 'E', 'A', 'D'], none⟩] = .ok [0xB9, 0, 0, 0, 0, 0x66] := by decide
theorem test_witness_RunEndsNormallyIffNoFault :
    (nextOf (runProgram [0x66])).map (fun t => (t.status, t.pc)) = some (.halted, 1) := by decide
theorem test_witness_SnapshotListsTheRange : (ended .halted none [] 0 0).status = .halted := by decide
theorem test_witness_SnapshotOnlyWhenHalted :
    (ended .halted none [] 0 0).status = .halted ∧ (nextOf (step (ended .halted none [] 0 0))).isSome := by decide
theorem test_witness_HostViewByStatus :
    (ended .halted none [] 0 0).status = .halted ∧ (ended .halted none [] 0 0).FaultRecordRight ∧
      (ended .faulted (some (.unknownOpcode 0 0)) [0] 0 0).status = .faulted := by
  refine ⟨by decide, fun h => (nomatch h), by decide⟩

end Sys2Proof.Tests
end

section
/-! The statements on the machine's state (spec/10_state.md). -/

namespace Sys2Proof.Machine

/-- Every cell reads 0 at the start of a run, the cells beyond 65535 that no instruction reaches included (R15, R23). -/
@[simp] theorem State.startRun_mem_read (prog : List Byte) (a : Nat) : (State.startRun prog).mem.read a = 0 := by
  rw [State.startRun_mem, Memory.read_nil]

/-- Every cell reads 0 in the reset state, which is the start of the run of the empty program. -/
@[simp] theorem State.reset_mem_read (a : Nat) : State.reset.mem.read a = 0 := by
  rw [← State.startRun_nil, State.startRun_mem_read]

/-- Settles O16: field by field, from what the start of a run and the reset state hold. -/
theorem resetIsTheZeroState : Obligations.ResetIsTheZeroState := by
  unfold Obligations.ResetIsTheZeroState
  refine ⟨fun prog => ?_, State.reset_acc, State.reset_pc, fun a _ => State.reset_mem_read a, State.reset_status,
    State.reset_fault⟩
  exact ⟨State.startRun_acc prog, State.startRun_pc prog, fun a _ => State.startRun_mem_read prog a,
    State.startRun_status prog, State.startRun_fault prog, State.startRun_prog prog⟩

end Sys2Proof.Machine
end

section
/-! The statements on the memory snapshot (spec/20_memory.md). -/

namespace Sys2Proof.Machine

/-- In `HALTED` a snapshot answers the list it walks (R45, R46). -/
theorem snapshot_halted {s : State} (h : s.status = .halted) (start stop : Nat) :
    snapshot s start stop = .entries (snapshotFrom s.mem start (min stop 65535 + 1 - start)) := by
  simp only [snapshot, h]

/-- Outside `HALTED` a snapshot is refused, by the status (R46). -/
theorem snapshot_refused {s : State} (h : s.status ≠ .halted) (start stop : Nat) :
    snapshot s start stop = .refused s.status := by
  cases hs : s.status with
  | running => simp only [snapshot, hs]
  | halted => exact absurd hs h
  | faulted => simp only [snapshot, hs]

/-- A snapshot is answered with entries exactly in `HALTED`, whatever range is asked for (R46). -/
theorem snapshot_entries_iff (s : State) (start stop : Nat) :
    (∃ cells, snapshot s start stop = .entries cells) ↔ s.status = .halted := by
  constructor
  · rintro ⟨cells, hcells⟩
    by_contra h
    rw [snapshot_refused h] at hcells
    cases hcells
  · exact fun h => ⟨_, snapshot_halted h start stop⟩

/-- A turn of the loop in `HALTED` leaves the whole state as it was (R16). -/
theorem step_of_halted {s t : State} (h : s.status = .halted) (hstep : step s = .next t) : t = s := by
  have hended : s.status ≠ .running := by simp [h]
  rw [step_ended hended] at hstep
  cases hstep
  rfl

/-- Settles O51: the answer is the list the snapshot walks, whose length and entries are known by induction on its length. -/
theorem snapshotListsTheRange : Obligations.SnapshotListsTheRange := by
  unfold Obligations.SnapshotListsTheRange
  intro s start stop h
  refine ⟨_, snapshot_halted h start stop, snapshotFrom_length _ _ _, fun k hk => ?_⟩
  rw [snapshotFrom_length] at hk
  exact snapshotFrom_getElem? _ _ _ _ hk

/-- Settles O52: entries are answered in `HALTED` and refused elsewhere, and a halted machine's turn answers the same state. -/
theorem snapshotOnlyWhenHalted : Obligations.SnapshotOnlyWhenHalted := by
  unfold Obligations.SnapshotOnlyWhenHalted
  refine ⟨snapshot_entries_iff, fun s t start stop h hstep => ?_⟩
  rw [step_of_halted h hstep]

end Sys2Proof.Machine
end

section
/-! The statements on the encoding (spec/30_encoding.md): the Decoder at any place in a program. -/

namespace Sys2Proof

/-! ## Bytes, their low 7 bits and their masks -/

/-- A byte's opcode field is one of 7 bits' values exactly for that value and for that value with bit 7 set (R51, R58). -/
theorem low7_eq_iff (b : Byte) (v : BitVec 7) : low7 b = v ↔ b.toNat = v.toNat ∨ b.toNat = v.toNat + 128 := by
  have hb := b.isLt
  have hv := v.isLt
  rw [← BitVec.toNat_inj, low7_toNat]
  omega

theorem low7_eq_setWidth (b : Byte) : low7 b = b.setWidth 7 := by
  apply BitVec.eq_of_toNat_eq
  rw [low7_toNat, BitVec.toNat_setWidth]

/-- The mask of the k low bits keeps the residue modulo 2^k. -/
theorem toNat_and_lowMask (b : Byte) {k : Nat} (hk : k ≤ 8) : (b &&& BitVec.ofNat 8 (2 ^ k - 1)).toNat = b.toNat % 2 ^ k := by
  have hmask : 2 ^ k - 1 < 2 ^ 8 := by
    have := Nat.pow_le_pow_right (n := 2) (by decide) hk
    omega
  rw [BitVec.toNat_and, BitVec.toNat_ofNat, Nat.mod_eq_of_lt hmask, Nat.and_two_pow_sub_one_eq_mod]

/-- The bits from k up are 0 in a byte below 2^k. -/
theorem and_highMask_eq_zero {b : Byte} {k : Nat} (h : b.toNat < 2 ^ k) : b &&& (BitVec.allOnes 8 <<< k) = 0 := by
  apply BitVec.eq_of_getLsbD_eq
  intro i hi
  by_cases hik : i < k
  · simp [hik]
  · have hbit : b.getLsbD i = false :=
      Nat.testBit_lt_two_pow (h.trans_le (Nat.pow_le_pow_right (by decide) (Nat.not_lt.mp hik)))
    simp [hbit]

theorem low7_and_lowMask (b : Byte) : low7 (b &&& 0x7F) = low7 b := by
  have hmask : (b &&& 0x7F).toNat = b.toNat % 2 ^ 7 := toNat_and_lowMask b (k := 7) (by decide)
  apply BitVec.eq_of_toNat_eq
  rw [low7_toNat, low7_toNat, hmask]
  omega

/-- The little-endian bytes of a word are its 8-bit slices from the lowest up (R36, R64). -/
theorem leBytes_eq_map_range (n w : Nat) : leBytes n w = (List.range n).map fun k => BitVec.ofNat 8 (w >>> (8 * k)) := by
  induction n generalizing w with
  | zero => rfl
  | succ n ih =>
    rw [leBytes, ih, List.range_succ_eq_map, List.map_cons, List.map_map, Nat.mul_zero, Nat.shiftRight_zero]
    refine congrArg _ (List.map_congr_left fun k _ => ?_)
    rw [← Nat.shiftRight_eq_div_pow, ← Nat.shiftRight_add, Function.comp_apply, Nat.mul_succ, Nat.add_comm]

theorem leBytes_three (w : Nat) :
    leBytes 3 w = [BitVec.ofNat 8 w, BitVec.ofNat 8 (w >>> 8), BitVec.ofNat 8 (w >>> 16)] := leBytes_eq_map_range 3 w

theorem leBytes_five (w : Nat) :
    leBytes 5 w = [BitVec.ofNat 8 w, BitVec.ofNat 8 (w >>> 8), BitVec.ofNat 8 (w >>> 16), BitVec.ofNat 8 (w >>> 24),
      BitVec.ofNat 8 (w >>> 32)] := leBytes_eq_map_range 5 w

/-! ## The Decoder's answer where an instruction's bytes stand -/

/-- The instruction an opcode makes of its little-endian word (R56, R57). -/
def Opcode.instrOfWord : Opcode → Nat → Instr
  | .load, w => .load (loadOperand w)
  | .read, _ => .read
  | .write, w => .write (writeOperand w)
  | .bswap, _ => .bswap

theorem requireBytes_of_le {prog : List Byte} {c : Nat} {op : Opcode} (i : Instr) (h : c + op.length ≤ prog.length) :
    requireBytes prog c op i = .instr i (c + op.length) := by
  rcases requireBytes_cases prog c op i with ⟨hlt, _⟩ | ⟨_, hr⟩
  · omega
  · exact hr

/-- The Decoder answers an instruction wherever an opcode's byte stands with enough bytes left (R61, R62). -/
theorem decode_of_opcode {prog : List Byte} {c : Nat} {b : Byte} {op : Opcode} (hb : prog[c]? = some b)
    (hop : low7 b = op.value) (hlen : c + op.length ≤ prog.length) :
    decode prog c = .instr (op.instrOfWord (progWord prog c op.length)) (c + op.length) := by
  have ho : opcodeOf (low7 b) = some op := by rw [hop, opcodeOf_value]
  cases op with
  | load => rw [decode_of_load hb ho, requireBytes_of_le _ hlen]; rfl
  | read => exact decode_of_read hb ho
  | write => rw [decode_of_write hb ho, requireBytes_of_le _ hlen]; rfl
  | bswap => exact decode_of_bswap hb ho

/-- The program word at the place of some bytes is the word of those bytes (R36). -/
theorem progWord_append (pre bs post : List Byte) : progWord (pre ++ bs ++ post) pre.length bs.length = leWord bs := by
  simp [progWord]

/-- An opcode's bytes decode the same at any place in any program. -/
theorem decode_append (pre post : List Byte) {bs : List Byte} {op : Opcode} (hop : bs[0]?.map low7 = some op.value)
    (hlen : bs.length = op.length) :
    decode (pre ++ bs ++ post) pre.length = .instr (op.instrOfWord (leWord bs)) (pre.length + op.length) := by
  obtain ⟨b, hb, hlow⟩ := Option.map_eq_some_iff.mp hop
  have hpos : 0 < bs.length := hlen ▸ op.length_pos
  have hget : (pre ++ bs ++ post)[pre.length]? = some b := by
    rw [List.append_assoc, List.getElem?_append_right (Nat.le_refl _), Nat.sub_self, List.getElem?_append_left hpos, hb]
  rw [decode_of_opcode hget hlow (by simp only [List.length_append]; omega), ← hlen, progWord_append]

/-- A one-byte form decodes whatever its bit 7 is (R51). -/
theorem decode_one_byte (pre post : List Byte) {b : Byte} {op : Opcode} (hop : low7 b = op.value) (hlen : op.length = 1) :
    decode (pre ++ b :: post) pre.length = .instr (op.instrOfWord (leWord [b])) (pre.length + 1) := by
  rw [← hlen, ← decode_append pre post (bs := [b]) (congrArg some hop) hlen.symm, List.append_assoc, List.singleton_append]

/-- The operand of `WRITE` byte by byte (R52). -/
theorem decode_write_fields (pre post : List Byte) {b0 : Byte} (b1 b2 : Byte) (hop : low7 b0 = 112) :
    decode (pre ++ [b0, b1, b2] ++ post) pre.length =
      .instr (.write (BitVec.ofNat 32 (b0.toNat / 2 ^ 7 + 2 * b1.toNat + 2 ^ 9 * (b2.toNat % 2 ^ 4)))) (pre.length + 3) := by
  have hfields : writeOperand (leWord [b0, b1, b2]) =
      BitVec.ofNat 32 (b0.toNat / 2 ^ 7 + 2 * b1.toNat + 2 ^ 9 * (b2.toNat % 2 ^ 4)) := by
    have h0 := b0.isLt
    have h1 := b1.isLt
    apply BitVec.eq_of_toNat_eq
    simp only [writeOperand_toNat, leWord, BitVec.toNat_ofNat]
    omega
  rw [decode_append pre post (bs := [b0, b1, b2]) (op := .write) (congrArg some hop) rfl, Opcode.instrOfWord, hfields]
  rfl

/-- The operand of `LOAD` byte by byte (R53). -/
theorem decode_load_fields (pre post : List Byte) {b0 : Byte} (b1 b2 b3 b4 : Byte) (hop : low7 b0 = 57) :
    decode (pre ++ [b0, b1, b2, b3, b4] ++ post) pre.length =
      .instr (.load (BitVec.ofNat 32 (b0.toNat / 2 ^ 7 + 2 * b1.toNat + 2 ^ 9 * b2.toNat + 2 ^ 17 * b3.toNat +
        2 ^ 25 * (b4.toNat % 2 ^ 6)))) (pre.length + 5) := by
  have hfields : loadOperand (leWord [b0, b1, b2, b3, b4]) =
      BitVec.ofNat 32 (b0.toNat / 2 ^ 7 + 2 * b1.toNat + 2 ^ 9 * b2.toNat + 2 ^ 17 * b3.toNat +
        2 ^ 25 * (b4.toNat % 2 ^ 6)) := by
    have h0 := b0.isLt
    have h1 := b1.isLt
    have h2 := b2.isLt
    have h3 := b3.isLt
    apply BitVec.eq_of_toNat_eq
    simp only [loadOperand_toNat, leWord, BitVec.toNat_ofNat]
    omega
  rw [decode_append pre post (bs := [b0, b1, b2, b3, b4]) (op := .load) (congrArg some hop) rfl, Opcode.instrOfWord, hfields]
  rfl

/-! ## Decoding what the encoder packs -/

theorem encode_length (i : Instr) : (encode i).length = i.length := by
  cases i with
  | load imm => exact Laws.EncodeLength.load imm
  | read => exact Laws.EncodeLength.read
  | write addr => exact Laws.EncodeLength.write addr
  | bswap => exact Laws.EncodeLength.bswap

theorem encode_first_byte (i : Instr) : (encode i)[0]?.map low7 = some i.opcode.value := by
  cases i with
  | load imm => exact Laws.FirstByteOpcode.load imm
  | read => exact Laws.FirstByteOpcode.read
  | write addr => exact Laws.FirstByteOpcode.write addr
  | bswap => exact Laws.FirstByteOpcode.bswap

/-- The operand of a well-formed instruction comes back from its encoded word. -/
theorem instrOfWord_encode {i : Instr} (h : i.wellFormed = true) : i.opcode.instrOfWord (leWord (encode i)) = i := by
  cases i with
  | load imm =>
    have hfits : imm.toNat < 2 ^ 31 := of_decide_eq_true h
    refine congrArg Instr.load (BitVec.eq_of_toNat_eq ?_)
    rw [loadOperand_toNat, encode, leWord_leBytes, packWord_load]
    omega
  | read => rfl
  | write addr =>
    have hfits : addr.toNat < 2 ^ 13 := of_decide_eq_true h
    refine congrArg Instr.write (BitVec.eq_of_toNat_eq ?_)
    rw [writeOperand_toNat, encode, leWord_leBytes, packWord_write]
    omega
  | bswap => rfl

/-- The encoding of a well-formed instruction decodes to it, at any place in any program, in exactly its bytes. -/
theorem decode_encode {i : Instr} (pre post : List Byte) (h : i.wellFormed = true) :
    decode (pre ++ encode i ++ post) pre.length = .instr i (pre.length + (encode i).length) := by
  rw [decode_append pre post (encode_first_byte i) (encode_length i), instrOfWord_encode h, encode_length, Instr.length]

/-- The encoding of a well-formed instruction, as a whole program, decodes to it. -/
theorem decode_encode_alone {i : Instr} (h : i.wellFormed = true) :
    decode (encode i) 0 = .instr i (encode i).length := by
  simpa using decode_encode [] [] h

end Sys2Proof
end

section
/-! The statements on the encoding (spec/30_encoding.md): what the Encoder answers (R64 to R66). -/

namespace Sys2Proof.Machine

/-- The Encoder refuses an operand outside the declared range of an opcode that takes one (R64, R65). -/
theorem encodeChecked_outOfRange {op : Opcode} {v : Int} (hop : op = .load ∨ op = .write)
    (hv : ¬(0 ≤ v ∧ v < declaredBound op)) : encodeChecked op (some v) = .error (.operandOutOfRange op v) := by
  rcases validateOperand_cases op v with ⟨hin, _⟩ | ⟨_, herr⟩
  · exact absurd hin hv
  · rcases hop with rfl | rfl <;> simp only [encodeChecked, checkInstr, herr] <;> rfl

theorem validateOperand_natCast {op : Opcode} {n : Nat} (hn : (n : Int) < declaredBound op) :
    validateOperand op (n : Int) = .ok (BitVec.ofNat 32 n) := by
  rcases validateOperand_cases op n with ⟨_, hok⟩ | ⟨hout, _⟩
  · rw [hok, Int.toNat_natCast]
  · exact absurd ⟨Int.natCast_nonneg n, hn⟩ hout

theorem checkInstr_load {n : Nat} (hn : n < 2 ^ 31) :
    checkInstr .load (some (n : Int)) = .ok (.load (BitVec.ofNat 32 n)) := by
  rw [checkInstr, validateOperand_natCast (by simp only [declaredBound]; omega)]
  rfl

theorem checkInstr_write {n : Nat} (hn : n < 4096) :
    checkInstr .write (some (n : Int)) = .ok (.write (BitVec.ofNat 32 n)) := by
  rw [checkInstr, validateOperand_natCast (by simp only [declaredBound]; omega)]
  rfl

theorem encodeChecked_of_checkInstr {op : Opcode} {v : Option Int} {i : Instr} (h : checkInstr op v = .ok i) :
    encodeChecked op v = .ok (encode i) := by
  rw [encodeChecked, h]
  rfl

theorem encode_load_ofNat {n : Nat} (hn : n < 2 ^ 31) : encode (.load (BitVec.ofNat 32 n)) = leBytes 5 (packWord .load n) := by
  rw [encode, BitVec.toNat_ofNat, Nat.mod_eq_of_lt (by omega)]

theorem encode_write_ofNat {n : Nat} (hn : n < 2 ^ 13) :
    encode (.write (BitVec.ofNat 32 n)) = leBytes 3 (packWord .write n) := by
  rw [encode, BitVec.toNat_ofNat, Nat.mod_eq_of_lt (by omega)]

theorem encodeChecked_read : encodeChecked .read none = .ok [0x66] := rfl

theorem encodeChecked_bswap : encodeChecked .bswap none = .ok [0x05] := rfl

/-- The Encoder refuses an operand where the opcode takes none (R67, D12). -/
theorem encodeChecked_operandPresence {op : Opcode} (v : Int) (hop : op = .read ∨ op = .bswap) :
    encodeChecked op (some v) = .error (.operandPresence op) := by
  rcases hop with rfl | rfl <;> rfl

/-- Everything the Encoder can produce (R64 to R66). -/
theorem encodeChecked_cases {op : Opcode} {v : Option Int} {bytes : List Byte} (h : encodeChecked op v = .ok bytes) :
    (∃ n : Nat, op = .load ∧ v = some (n : Int) ∧ n < 2 ^ 31 ∧ bytes = leBytes 5 (packWord .load n)) ∨
      (op = .read ∧ v = none ∧ bytes = [0x66]) ∨
      (∃ n : Nat, op = .write ∧ v = some (n : Int) ∧ n < 4096 ∧ bytes = leBytes 3 (packWord .write n)) ∨
      (op = .bswap ∧ v = none ∧ bytes = [0x05]) := by
  obtain ⟨i, hi, rfl⟩ := encodeChecked_ok h
  rcases checkInstr_ok hi with ⟨n, rfl, rfl, hn, rfl⟩ | ⟨rfl, rfl, rfl⟩ | ⟨n, rfl, rfl, hn, rfl⟩ | ⟨rfl, rfl, rfl⟩
  · exact .inl ⟨n, rfl, rfl, hn, encode_load_ofNat hn⟩
  · exact .inr (.inl ⟨rfl, rfl, rfl⟩)
  · exact .inr (.inr (.inl ⟨n, rfl, rfl, hn, encode_write_ofNat (by omega)⟩))
  · exact .inr (.inr (.inr ⟨rfl, rfl, rfl⟩))

/-- The five bytes of a `LOAD` in range: the opcode in the first, bits 7:6 of the last 0 (R53, R64). -/
theorem leBytes_packWord_load {n : Nat} (hn : n < 2 ^ 31) :
    ∃ b0 b1 b2 b3 b4, leBytes 5 (packWord .load n) = [b0, b1, b2, b3, b4] ∧ low7 b0 = 57 ∧ b4.toNat < 2 ^ 6 := by
  refine ⟨_, _, _, _, _, leBytes_five _, Laws.low7_packWord .load n, ?_⟩
  rw [BitVec.toNat_ofNat, packWord_load, Nat.shiftRight_eq_div_pow]
  omega

/-- The three bytes of a `WRITE` in range: the opcode in the first, bits 7:3 of the last 0 (R52, R65). -/
theorem leBytes_packWord_write {n : Nat} (hn : n < 4096) :
    ∃ b0 b1 b2, leBytes 3 (packWord .write n) = [b0, b1, b2] ∧ low7 b0 = 112 ∧ b2.toNat < 2 ^ 3 := by
  refine ⟨_, _, _, leBytes_three _, Laws.low7_packWord .write n, ?_⟩
  rw [BitVec.toNat_ofNat, packWord_write, Nat.shiftRight_eq_div_pow]
  omega

/-- The Encoder produces no non-canonical encoding (R68). -/
theorem not_nonCanonical_of_encodeChecked {op : Opcode} {v : Option Int} {bytes : List Byte}
    (h : encodeChecked op v = .ok bytes) : ¬NonCanonical bytes := by
  rcases encodeChecked_cases h with ⟨n, -, -, hn, rfl⟩ | ⟨-, -, rfl⟩ | ⟨n, -, -, hn, rfl⟩ | ⟨-, -, rfl⟩
  · obtain ⟨b0, b1, b2, b3, b4, hbytes, -, hlt⟩ := leBytes_packWord_load hn
    rw [hbytes]
    exact Nat.not_le.mpr hlt
  · unfold NonCanonical; decide
  · obtain ⟨b0, b1, b2, hbytes, -, hlt⟩ := leBytes_packWord_write hn
    have hbit : b2.getLsbD 3 = false := Nat.testBit_lt_two_pow hlt
    rw [hbytes]
    rintro (hle | hset)
    · omega
    · rw [hbit] at hset; cases hset
  · unfold NonCanonical; decide

/-- What the Encoder produces decodes to the validated instruction in exactly the bytes produced (R69). -/
theorem exists_encodeChecked_decode {op : Opcode} {v : Option Int} {i : Instr} (h : checkInstr op v = .ok i) :
    ∃ bytes, encodeChecked op v = .ok bytes ∧ decode bytes 0 = .instr i bytes.length :=
  ⟨encode i, encodeChecked_of_checkInstr h, decode_encode_alone (checkInstr_wellFormed h)⟩

/-! ## The statements -/

/-- Settles O2: the one-byte case of decoding at any place. -/
theorem oneByteFormsIgnoreBit7 : Obligations.OneByteFormsIgnoreBit7 := by
  unfold Obligations.OneByteFormsIgnoreBit7
  refine ⟨fun pre post b hb => ?_, fun pre post b hb => ?_, encodeChecked_read, encodeChecked_bswap, by decide, by decide⟩
  · exact decode_one_byte pre post (op := .read) hb rfl
  · exact decode_one_byte pre post (op := .bswap) hb rfl

/-- Settles O3: the operand's fields by arithmetic on the word, and the bound on the Encoder's third byte by its operand's. -/
theorem writeFieldLayout : Obligations.WriteFieldLayout := by
  unfold Obligations.WriteFieldLayout
  refine ⟨fun pre post b0 b1 b2 hop => decode_write_fields pre post b1 b2 hop, fun v bytes h => ?_⟩
  rcases encodeChecked_cases h with ⟨_, hop, -⟩ | ⟨hop, -⟩ | ⟨n, -, hv, hn, rfl⟩ | ⟨hop, -⟩
  · cases hop
  · cases hop
  · cases hv
    exact ⟨Int.natCast_nonneg n, by omega, leBytes_packWord_write hn⟩
  · cases hop

/-- Settles O4: the operand's fields by arithmetic on the word, and the bound on the Encoder's fifth byte by its operand's. -/
theorem loadFieldLayout : Obligations.LoadFieldLayout := by
  unfold Obligations.LoadFieldLayout
  refine ⟨fun pre post b0 b1 b2 b3 b4 hop => decode_load_fields pre post b1 b2 b3 b4 hop, fun v bytes h => ?_⟩
  rcases encodeChecked_cases h with ⟨n, -, -, hn, rfl⟩ | ⟨hop, -⟩ | ⟨_, hop, -⟩ | ⟨hop, -⟩
  · exact leBytes_packWord_load hn
  · cases hop
  · cases hop
  · cases hop

/-- Settles O7: a masked byte keeps the residue the Decoder reads, and the Encoder's last byte is below the mask. -/
theorem ignoredBitsDoNotMatter : Obligations.IgnoredBitsDoNotMatter := by
  unfold Obligations.IgnoredBitsDoNotMatter
  refine ⟨fun pre post b hb => ?_, fun pre post b0 b1 b2 hb => ?_, fun pre post b0 b1 b2 b3 b4 hb => ?_,
    fun op v bytes h => ?_⟩
  · rcases hb with hb | hb
    · exact ⟨.read, decode_one_byte pre post (op := .read) hb rfl,
        decode_one_byte pre post (op := .read) ((low7_and_lowMask b).trans hb) rfl⟩
    · exact ⟨.bswap, decode_one_byte pre post (op := .bswap) hb rfl,
        decode_one_byte pre post (op := .bswap) ((low7_and_lowMask b).trans hb) rfl⟩
  · have hmask : (b2 &&& 0x0F).toNat = b2.toNat % 2 ^ 4 := toNat_and_lowMask b2 (k := 4) (by decide)
    refine ⟨_, decode_write_fields pre post b1 b2 hb, ?_⟩
    rw [decode_write_fields pre post b1 _ hb, hmask, Nat.mod_mod]
  · have hmask : (b4 &&& 0x3F).toNat = b4.toNat % 2 ^ 6 := toNat_and_lowMask b4 (k := 6) (by decide)
    refine ⟨_, decode_load_fields pre post b1 b2 b3 b4 hb, ?_⟩
    rw [decode_load_fields pre post b1 b2 b3 _ hb, hmask, Nat.mod_mod]
  · rcases encodeChecked_cases h with ⟨n, rfl, -, hn, rfl⟩ | ⟨rfl, -, rfl⟩ | ⟨n, rfl, -, hn, rfl⟩ | ⟨rfl, -, rfl⟩
    · obtain ⟨b0, b1, b2, b3, b4, hbytes, -, hlt⟩ := leBytes_packWord_load hn
      exact ⟨b0, b1, b2, b3, b4, hbytes, and_highMask_eq_zero (k := 6) hlt⟩
    · exact ⟨0x66, rfl, by decide⟩
    · obtain ⟨b0, b1, b2, hbytes, -, hlt⟩ := leBytes_packWord_write hn
      exact ⟨b0, b1, b2, hbytes, and_highMask_eq_zero (k := 4) (by omega)⟩
    · exact ⟨0x05, rfl, by decide⟩

/-- Settles O9: the Range Validator's two answers, and the packed word as a sum. -/
theorem encoderLoad : Obligations.EncoderLoad := by
  unfold Obligations.EncoderLoad
  refine ⟨fun v hv => ?_, fun v hv => ⟨?_, ?_⟩, by decide⟩
  · exact encodeChecked_outOfRange (.inl rfl) (by simp only [declaredBound]; omega)
  · have hw : 57 ||| (v <<< 7) = 57 + 128 * v := packWord_load v
    omega
  · rw [encodeChecked_of_checkInstr (checkInstr_load (by omega)), encode_load_ofNat (by omega), leBytes_five]
    rfl

/-- Settles O10: as for `LOAD`; what the Encoder refuses and the Decoder accepts is the encoding of a well-formed instruction. -/
theorem encoderWrite : Obligations.EncoderWrite := by
  unfold Obligations.EncoderWrite
  refine ⟨fun v hv => ?_, fun v hv => ⟨?_, ?_⟩, fun v _ hv => ?_, by decide⟩
  · exact encodeChecked_outOfRange (.inr rfl) (by simp only [declaredBound]; omega)
  · have hw : 112 ||| (v <<< 7) = 112 + 128 * v := packWord_write v
    omega
  · rw [encodeChecked_of_checkInstr (checkInstr_write (by omega)), encode_write_ofNat (by omega), leBytes_three]
    rfl
  · have hwf : (Instr.write (BitVec.ofNat 32 v)).wellFormed = true := by
      simp only [Instr.wellFormed, writeOperandFits, BitVec.toNat_ofNat, decide_eq_true_eq]
      omega
    have hdec := decode_encode_alone hwf
    rw [encode_write_ofNat (by omega), leBytes_three] at hdec
    exact hdec

/-- Settles O11: the opcode value without an operand, the refusal with one. -/
theorem encoderOneByte : Obligations.EncoderOneByte := by
  unfold Obligations.EncoderOneByte
  refine ⟨encodeChecked_read, encodeChecked_bswap, fun v bytes => ⟨?_, ?_⟩⟩
  · rw [encodeChecked_operandPresence v (.inl rfl)]
    nofun
  · rw [encodeChecked_operandPresence v (.inr rfl)]
    nofun

/-- Settles O12: a validated instruction is well formed, so it decodes from its encoding; the Encoder produces no non-canonical
bytes at all. -/
theorem encoderDecoderRoundTrip : Obligations.EncoderDecoderRoundTrip := by
  unfold Obligations.EncoderDecoderRoundTrip
  refine ⟨fun v hv => ?_, fun v hv => ?_, ?_, ?_, fun bytes i _ hnon h => ?_⟩
  · exact exists_encodeChecked_decode (checkInstr_load (by omega))
  · exact exists_encodeChecked_decode (checkInstr_write (by omega))
  · exact exists_encodeChecked_decode (i := .read) rfl
  · exact exists_encodeChecked_decode (i := .bswap) rfl
  · exact not_nonCanonical_of_encodeChecked h hnon

end Sys2Proof.Machine
end

section
/-! The statement on the illegal first bytes (R59, R121). -/

namespace Sys2Proof.Machine

/-- The eight first bytes that select an opcode (R59): each opcode value with bit 7 clear and set. -/
theorem opcodeOf_low7_eq_none_iff (b : Byte) :
    opcodeOf (low7 b) = none ↔ b ∉ ([0x05, 0x85, 0x39, 0xB9, 0x66, 0xE6, 0x70, 0xF0] : List Byte) := by
  have hnone : opcodeOf (low7 b) = none ↔ low7 b ≠ 57 ∧ low7 b ≠ 102 ∧ low7 b ≠ 112 ∧ low7 b ≠ 5 := by
    unfold opcodeOf
    split_ifs <;> simp_all
  rw [hnone]
  simp only [ne_eq, low7_eq_iff, List.mem_cons, List.not_mem_nil, or_false]
  simp only [← BitVec.toNat_inj, BitVec.toNat_ofNat, BitVec.ofNat_eq_ofNat]
  omega

/-- With a first byte present the Decoder answers `UnknownOpcode` exactly when the byte selects no opcode. -/
theorem decode_unknown_iff {prog : List Byte} {c : Nat} {b : Byte} (hb : prog[c]? = some b) :
    (∃ r k, decode prog c = .unknownOpcode r k) ↔ opcodeOf (low7 b) = none := by
  constructor
  · rintro ⟨r, k, h⟩
    obtain ⟨b', hb', ho, -, -⟩ := decode_unknown h
    cases hb.symm.trans hb'
    exact ho
  · exact fun ho => ⟨_, _, decode_of_no_opcode hb ho⟩

theorem illegal_opcode_count :
    ((List.range 128).filter fun v => (opcodeOf (BitVec.ofNat 7 v)).isNone).length = 124 := by rfl

theorem low7_ofNat (v : Nat) : low7 (BitVec.ofNat 8 v) = BitVec.ofNat 7 v := by
  apply BitVec.eq_of_toNat_eq
  rw [low7_toNat, BitVec.toNat_ofNat, BitVec.toNat_ofNat]
  omega

/-- The upper 128 bytes select what the lower 128 do, so each illegal opcode value is two illegal first bytes (R59). -/
theorem illegal_first_byte_count :
    ((List.range 256).filter fun v => (opcodeOf (low7 (BitVec.ofNat 8 v))).isNone).length = 248 := by
  have hupper (v : Nat) : BitVec.ofNat 7 (128 + v) = BitVec.ofNat 7 v := by
    apply BitVec.eq_of_toNat_eq
    rw [BitVec.toNat_ofNat, BitVec.toNat_ofNat]
    omega
  rw [show 256 = 128 + 128 from rfl, List.range_add]
  simp only [low7_ofNat, List.filter_append, List.filter_map, List.length_append, List.length_map, Function.comp_def,
    hupper, illegal_opcode_count]

/-- Settles O5: the Decoder's answer on a byte without opcode, the fault the step makes of it, and the two counts. -/
theorem illegalFirstBytesFault : Obligations.IllegalFirstBytesFault := by
  unfold Obligations.IllegalFirstBytesFault
  refine ⟨fun prog c b hb => ?_, fun s b hrun hb hillegal => ?_, illegal_opcode_count,
    illegal_first_byte_count, by decide, by decide⟩
  · rw [decode_unknown_iff hb, opcodeOf_low7_eq_none_iff]
  · obtain ⟨hpc, -⟩ := List.getElem?_eq_some_iff.mp hb
    have ho : opcodeOf (low7 b) = none := (opcodeOf_low7_eq_none_iff b).mpr hillegal
    rw [step_unknown hrun hpc (decode_of_no_opcode hb ho), low7_eq_setWidth]
    rfl

end Sys2Proof.Machine
end

section
/-! The statement on whole listings (R72). -/

namespace Sys2Proof.Machine

theorem encodeRow_of_ok {r : Row} {i : Instr} (h : rowInstr r = .ok i) : encodeRow r = .ok (encode i) := by
  rw [encodeRow, h]
  rfl

theorem encodeRow_of_error {r : Row} {e : ToolError} (h : rowInstr r = .error e) : encodeRow r = .error e := by
  rw [encodeRow, h]
  rfl

/-- A valid row puts its encoding before the rest of the program. -/
theorem assemble_cons_of_ok {r : Row} {i : Instr} (rows : List Row) (h : rowInstr r = .ok i) :
    assemble (r :: rows) = (assemble rows).map (encode i ++ ·) := by
  simp only [assemble, encodeRow_of_ok h]
  cases assemble rows <;> rfl

/-- An invalid row aborts the translation of what begins with it. -/
theorem assemble_cons_of_error {r : Row} {e : ToolError} (rows : List Row) (h : rowInstr r = .error e) :
    assemble (r :: rows) = .error e := by
  simp only [assemble, encodeRow_of_error h]

/-- Valid rows put their encodings in order before the program of the rows that follow. -/
theorem assemble_append {good : List Row} {is : List Instr} (rest : List Row) (h : good.map rowInstr = is.map .ok) :
    assemble (good ++ rest) = (assemble rest).map (encodeAll is ++ ·) := by
  induction good generalizing is with
  | nil =>
    cases List.map_eq_nil_iff.mp h.symm
    rw [List.nil_append]
    cases assemble rest <;> rfl
  | cons r good ih =>
    cases is with
    | nil => cases h
    | cons i is =>
      obtain ⟨hr, hgood⟩ := List.cons_eq_cons.mp h
      rw [List.cons_append, assemble_cons_of_ok _ hr, ih hgood]
      cases assemble rest with
      | error e => rfl
      | ok bytes => exact congrArg Except.ok (List.append_assoc _ _ _).symm

/-- The length of a program by its opcodes (R55, R72). -/
theorem encodeAll_length (is : List Instr) :
    (encodeAll is).length = 5 * (is.map Instr.opcode).count .load + 3 * (is.map Instr.opcode).count .write +
      (is.map Instr.opcode).count .read + (is.map Instr.opcode).count .bswap := by
  induction is with
  | nil => rfl
  | cons i is ih =>
    rw [encodeAll, List.length_append, encode_length, ih, Instr.length, List.map_cons]
    cases i.opcode <;> simp [Opcode.length] <;> omega

/-- Settles O15: by induction on the valid rows, with the rest of the listing empty or beginning with an invalid row. -/
theorem assembleListing : Obligations.AssembleListing := by
  unfold Obligations.AssembleListing
  refine ⟨fun rows is h => ⟨?_, encodeAll_length is⟩, fun good rest is r e h hr => ?_⟩
  · have happ := assemble_append [] h
    rw [List.append_nil] at happ
    rw [happ]
    exact congrArg Except.ok (List.append_nil _)
  · rw [assemble_append _ h, assemble_cons_of_error _ hr]
    rfl

end Sys2Proof.Machine
end

section
/-! The statements on the normal end of a run (spec/40_fetch_decode_dispatch.md, R84 and R89). -/

namespace Sys2Proof.Machine

/-- No instruction ends a run normally: its meaning keeps `STATUS` or raises a fault (R84, R126). -/
theorem exec_status_ne_halted {i : Instr} {s t : State} (hs : s.status ≠ .halted) (h : exec i s = .next t) :
    t.status ≠ .halted := by
  obtain ⟨_, -, rfl⟩ | ⟨-, -, rfl⟩ | ⟨-, -, rfl⟩ | ⟨_, -, -, rfl⟩ | ⟨_, -, -, rfl⟩ | ⟨-, rfl⟩ := exec_cases h
  · rwa [State.setAcc_status]
  · rwa [State.setAcc_status]
  · simp
  · rwa [State.memWrite_status]
  · simp
  · rwa [State.setAcc_status]

/-- Of the turns of a running machine, only the one taken at or beyond the end of the program answers a halted state; `PC` beyond
the end, which no run reaches, is the model's reading (log 19). -/
theorem step_to_halted {s t : State} (hr : s.status = .running) (h : step s = .next t) (ht : t.status = .halted) :
    s.prog.length ≤ s.pc ∧ t = s.halt := by
  obtain ⟨hended, -⟩ | ⟨-, hend, rfl⟩ | ⟨-, -, ⟨_, _, -, rfl⟩ | ⟨_, _, -, rfl⟩ | ⟨i, n, -, hexec⟩⟩ := step_cases h
  · exact absurd hr hended
  · exact ⟨hend, rfl⟩
  · simp at ht
  · simp at ht
  · exact absurd ht (exec_status_ne_halted (by simp [hr]) hexec)

/-- Settles O20: the turn at the end of the program, and the inversion of a halting turn with `PC` at most `PROG_LEN`. -/
theorem normalEndExactly : Obligations.NormalEndExactly := by
  unfold Obligations.NormalEndExactly
  refine ⟨fun s hr hpc => step_atEnd hr hpc.ge, fun s t hr hbound h ht => ?_⟩
  obtain ⟨hend, rfl⟩ := step_to_halted hr h ht
  exact ⟨Nat.le_antisymm hbound hend, rfl⟩

/-- The start of the empty program's run is already its end, so the first turn halts (R84, R89). -/
theorem step_startRun_nil : step (State.startRun []) = .next (State.startRun []).halt :=
  step_atEnd (State.startRun_status []) (Nat.le_refl 0)

/-- Settles O21: the one turn that the empty program's run is given halts. -/
theorem emptyProgramHalts : Obligations.EmptyProgramHalts := by
  unfold Obligations.EmptyProgramHalts
  exact ⟨step_startRun_nil, (run_succ 0 step_startRun_nil).trans (run_zero _)⟩

end Sys2Proof.Machine
end

section
/-! The statement on `LOAD` (spec/41_load.md, R100); the lemmas before it are about every opcode, or the two with an operand. -/

namespace Sys2Proof

theorem requireBytes_of_lt {prog : List Byte} {c : Nat} {op : Opcode} (i : Instr) (h : prog.length < c + op.length) :
    requireBytes prog c op i = .truncatedInstruction op.value c := by
  rcases requireBytes_cases prog c op i with ⟨_, hr⟩ | ⟨hle, _⟩
  · exact hr
  · omega

/-- The Decoder answers `TruncatedInstruction` wherever an opcode's byte stands with too few bytes left (R62, R122). A one-byte
form is never short: its only byte is the one that stands there. -/
theorem decode_of_opcode_short {prog : List Byte} {c : Nat} {b : Byte} {op : Opcode} (hb : prog[c]? = some b)
    (hop : low7 b = op.value) (hlen : prog.length < c + op.length) :
    decode prog c = .truncatedInstruction op.value c := by
  have ho : opcodeOf (low7 b) = some op := by rw [hop, opcodeOf_value]
  obtain ⟨hc, -⟩ := List.getElem?_eq_some_iff.mp hb
  cases op with
  | load => rw [decode_of_load hb ho, requireBytes_of_lt _ hlen]
  | read => exact absurd hlen (Nat.not_lt.mpr hc)
  | write => rw [decode_of_write hb ho, requireBytes_of_lt _ hlen]
  | bswap => exact absurd hlen (Nat.not_lt.mpr hc)

/-- The operand of `LOAD` as a quotient and a residue of the 40-bit word (R57). -/
theorem loadOperand_eq (w : Nat) : loadOperand w = BitVec.ofNat 32 (w / 2 ^ 7 % 2 ^ 31) := by
  rw [loadOperand, bitField_eq]

/-- The operand of `LOAD` has 31 bits, so its extension to 32 bits leaves bit 31 clear (R57, R100). -/
theorem loadOperand_bit31 (w : Nat) : (loadOperand w).getLsbD 31 = false := by
  have hlt : (loadOperand w).toNat < 2 ^ 31 := of_decide_eq_true (loadOperandFits_loadOperand w)
  exact Nat.testBit_lt_two_pow hlt

end Sys2Proof

namespace Sys2Proof.Machine

/-- A running machine at an opcode's byte with all the instruction's bytes there advances past them and applies it (R81). -/
theorem step_of_opcode {s : State} {b : Byte} {op : Opcode} (hr : s.status = .running) (hb : s.prog[s.pc]? = some b)
    (hop : low7 b = op.value) (hlen : s.pc + op.length ≤ s.prog.length) :
    step s = exec (op.instrOfWord (progWord s.prog s.pc op.length)) (s.advance (s.pc + op.length)) := by
  obtain ⟨hpc, -⟩ := List.getElem?_eq_some_iff.mp hb
  exact step_decoded hr hpc (decode_of_opcode hb hop hlen)

/-- A running machine at an opcode's byte with too few bytes left takes `TruncatedInstruction` (R122). -/
theorem step_of_opcode_short {s : State} {b : Byte} {op : Opcode} (hr : s.status = .running)
    (hb : s.prog[s.pc]? = some b) (hop : low7 b = op.value) (hlen : s.prog.length < s.pc + op.length) :
    step s = .next (s.raise (.truncatedInstruction op.value s.pc)) := by
  obtain ⟨hpc, -⟩ := List.getElem?_eq_some_iff.mp hb
  exact step_truncated hr hpc (decode_of_opcode_short hb hop hlen)

/-- The Encoder accepts exactly the declared range of an opcode that takes an operand (R64, R65). -/
theorem exists_encodeChecked_iff {op : Opcode} (v : Int) (hop : op = .load ∨ op = .write) :
    (∃ bytes, encodeChecked op (some v) = .ok bytes) ↔ 0 ≤ v ∧ v < declaredBound op := by
  constructor
  · rintro ⟨bytes, hok⟩
    by_contra hout
    cases hok.symm.trans (encodeChecked_outOfRange hop hout)
  · rintro ⟨h0, hlt⟩
    lift v to Nat using h0
    rcases hop with rfl | rfl
    · exact ⟨_, encodeChecked_of_checkInstr (checkInstr_load (by simp only [declaredBound] at hlt; omega))⟩
    · exact ⟨_, encodeChecked_of_checkInstr (checkInstr_write (by simp only [declaredBound] at hlt; omega))⟩

/-- Settles O28: the short and the complete step at a `LOAD` byte, with the operand written as the 31 bits it is, and the
declared range. -/
theorem loadRule : Obligations.LoadRule := by
  unfold Obligations.LoadRule
  refine ⟨fun s b hr hb hlow => ⟨fun hshort => ?_, fun hfull => ⟨?_, ?_⟩⟩, fun v => ?_⟩
  · exact step_of_opcode_short (op := .load) hr hb hlow hshort
  · rw [← loadOperand_eq]
    exact step_of_opcode (op := .load) hr hb hlow hfull
  · rw [← loadOperand_eq]
    exact loadOperand_bit31 _
  · rw [exists_encodeChecked_iff v (.inl rfl), declaredBound]
    omega

end Sys2Proof.Machine
end

section
/-! The statements on `READ` and `WRITE` (spec/42_read_write.md, R105 and R106). -/

namespace Sys2Proof

/-- The operand of `WRITE` has 13 bits (R56). -/
theorem writeOperand_lt (w : Nat) : (writeOperand w).toNat < 2 ^ 13 :=
  of_decide_eq_true (writeOperandFits_writeOperand w)

end Sys2Proof

namespace Sys2Proof.Machine

theorem exec_read_of_le {s : State} (h : s.acc.toNat ≤ 65535) :
    exec .read s = .next (s.setAcc (s.mem.read s.acc.toNat)) := by
  rcases exec_read_cases s with ⟨-, he⟩ | ⟨hgt, -⟩
  · exact he
  · omega

theorem exec_read_of_gt {s : State} (h : 65535 < s.acc.toNat) :
    exec .read s = .next (s.raise (.memoryOutOfRange s.acc)) := by
  rcases exec_read_cases s with ⟨hle, -⟩ | ⟨-, he⟩
  · omega
  · exact he

theorem exec_write_of_le {addr : Word} (s : State) (h : addr.toNat ≤ 65535) :
    exec (.write addr) s = .next (s.memWrite addr s.acc) := by
  rcases exec_write_cases addr s with ⟨-, he⟩ | ⟨hgt, -⟩
  · exact he
  · omega

/-- A running machine at a byte of `READ` advances by 1 and applies it; the byte is always all there (R51, R81). -/
theorem step_of_read {s : State} {b : Byte} (hr : s.status = .running) (hb : s.prog[s.pc]? = some b)
    (hop : low7 b = 102) : step s = exec .read (s.advance (s.pc + 1)) := by
  obtain ⟨hpc, -⟩ := List.getElem?_eq_some_iff.mp hb
  exact step_of_opcode (op := .read) hr hb hop hpc

/-- A running machine at the three bytes of a `WRITE` advances past them and stores `ACC` in the cell of its operand, which is
never out of range (R81, R106). -/
theorem step_of_write {s : State} {b : Byte} (hr : s.status = .running) (hb : s.prog[s.pc]? = some b)
    (hop : low7 b = 112) (hlen : s.pc + 3 ≤ s.prog.length) :
    step s = .next ((s.advance (s.pc + 3)).memWrite (writeOperand (progWord s.prog s.pc 3)) s.acc) := by
  have hrange : (writeOperand (progWord s.prog s.pc 3)).toNat ≤ 65535 := by
    have := writeOperand_lt (progWord s.prog s.pc 3)
    omega
  exact (step_of_opcode (op := .write) hr hb hop hlen).trans (exec_write_of_le _ hrange)

/-- Settles O29: both bytes are `READ`'s, and its meaning in the advanced state is the load or the fault by the range of `ACC`. -/
theorem readRule : Obligations.ReadRule := by
  unfold Obligations.ReadRule
  refine ⟨fun s b hr hb hbyte => ?_, encodeChecked_read⟩
  have hop : low7 b = 102 := by rcases hbyte with rfl | rfl <;> decide
  rw [step_of_read hr hb hop]
  exact ⟨fun hin => exec_read_of_le (s := s.advance (s.pc + 1)) hin,
    fun hout => exec_read_of_gt (s := s.advance (s.pc + 1)) hout⟩

/-- Settles O30: the short and the complete step at a `WRITE` byte; the read-after-write law at its 13-bit operand gives every
cell, those from 8192 up being other cells. -/
theorem writeRule : Obligations.WriteRule := by
  unfold Obligations.WriteRule
  refine ⟨fun s b hr hb hlow => ⟨fun hshort => ?_, fun hfull => ?_⟩, fun v => ?_⟩
  · exact step_of_opcode_short (op := .write) hr hb hlow hshort
  · refine ⟨_, step_of_write hr hb hlow hfull, rfl, fun x => ?_, fun x hx => ?_⟩
    · have hcell : (writeOperand (progWord s.prog s.pc 3)).toNat = progWord s.prog s.pc 3 / 2 ^ 7 % 2 ^ 13 :=
        writeOperand_toNat _
      rw [State.memWrite_mem, State.advance_mem, Memory.read_write, hcell]
    · have hlt := writeOperand_lt (progWord s.prog s.pc 3)
      rw [State.memWrite_mem, State.advance_mem, Memory.read_write_other _ _ (by omega)]
  · rw [exists_encodeChecked_iff v (.inr rfl), declaredBound]
    omega

end Sys2Proof.Machine
end

section
/-! The statements on `BSWAP` (spec/43_bswap.md, R115 and R116). -/

namespace Sys2Proof.Machine

/-! ## The four bytes of a word -/

/-- A word is known by its four bytes. -/
theorem word_ext_bytes {a b : Word} (h : ∀ k < 4, a.extractLsb' (8 * k) 8 = b.extractLsb' (8 * k) 8) : a = b := by
  apply BitVec.eq_of_getLsbD_eq
  intro i hi
  have hbit := congrArg (fun x : BitVec 8 => x.getLsbD (i % 8)) (h (i / 8) (by omega))
  have hmod : i % 8 < 8 := Nat.mod_lt _ (by decide)
  simpa [hmod, Nat.div_add_mod] using hbit

/-- Byte k of the reversed word is byte 3 - k of the word (R8, R115). -/
theorem bswap32_byte (a : Word) {k : Nat} (hk : k < 4) :
    (bswap32 a).extractLsb' (8 * k) 8 = a.extractLsb' (8 * (3 - k)) 8 := by
  unfold bswap32
  match k, hk with
  | 0, _ => exact BitVec.extractLsb'_append_eq_right
  | 1, _ =>
    rw [BitVec.extractLsb'_append_eq_of_le (by decide)]
    exact BitVec.extractLsb'_append_eq_right
  | 2, _ =>
    rw [BitVec.extractLsb'_append_eq_of_le (by decide), BitVec.extractLsb'_append_eq_of_le (by decide)]
    exact BitVec.extractLsb'_append_eq_right
  | 3, _ =>
    rw [BitVec.extractLsb'_append_eq_of_le (by decide), BitVec.extractLsb'_append_eq_of_le (by decide)]
    exact BitVec.extractLsb'_append_eq_left

/-- Mirroring the places of the bytes twice brings each byte back (R116). -/
theorem bswap32_involutive : Function.Involutive bswap32 := by
  intro a
  apply word_ext_bytes
  intro k hk
  have hmirror : 3 - (3 - k) = k := by omega
  rw [bswap32_byte _ hk, bswap32_byte _ (by omega), hmirror]

/-- The top byte is what a shift right by 24 leaves. -/
theorem setWidth_topByte (a : Word) : (a.extractLsb' 24 8).setWidth 32 = a >>> 24 := by
  have ha := a.isLt
  apply BitVec.eq_of_toNat_eq
  simp only [BitVec.toNat_setWidth, BitVec.extractLsb'_toNat, BitVec.toNat_ushiftRight, Nat.shiftRight_eq_div_pow]
  omega

/-- The reversal as the shifts and masks of R115. -/
theorem bswap32_eq_shifts (a : Word) :
    bswap32 a = (a.setWidth 8).setWidth 32 <<< 24 ||| ((a >>> 8).setWidth 8).setWidth 32 <<< 16 |||
      ((a >>> 16).setWidth 8).setWidth 32 <<< 8 ||| a >>> 24 := by
  rw [BitVec.setWidth_ushiftRight_eq_extractLsb, BitVec.setWidth_ushiftRight_eq_extractLsb,
    BitVec.setWidth_eq_extractLsb' (x := a) (w := 8) (by decide), ← setWidth_topByte]
  exact (BitVec.setWidth_eq (bswap32 a)).symm.trans BitVec.setWidth_append_append_append_eq_shiftLeft_setWidth_or

/-! ## The step -/

/-- A running machine at a byte of `BSWAP` advances by 1 and reverses `ACC` (R81, R115). -/
theorem step_of_bswap {s : State} {b : Byte} (hr : s.status = .running) (hb : s.prog[s.pc]? = some b)
    (hop : low7 b = 5) : step s = .next ((s.advance (s.pc + 1)).setAcc (bswap32 s.acc)) := by
  obtain ⟨hpc, -⟩ := List.getElem?_eq_some_iff.mp hb
  exact (step_of_opcode (op := .bswap) hr hb hop hpc).trans (exec_bswap _)

/-- Two `BSWAP` bytes in a row advance `PC` by 2 and reverse `ACC` twice. -/
theorem run_two_bswap {s : State} {b b' : Byte} (hr : s.status = .running) (hb : s.prog[s.pc]? = some b)
    (hb' : s.prog[s.pc + 1]? = some b') (hop : low7 b = 5) (hop' : low7 b' = 5) :
    Sys2Proof.core.run 2 s = .next ((s.advance (s.pc + 2)).setAcc (bswap32 (bswap32 s.acc))) := by
  rw [run_succ 1 (step_of_bswap hr hb hop),
    run_succ 0 (step_of_bswap (s := (s.advance (s.pc + 1)).setAcc (bswap32 s.acc)) hr hb' hop')]
  rfl

/-- Settles O31: both bytes are `BSWAP`'s, and the reversal is the formula of shifts. -/
theorem bswapRule : Obligations.BswapRule := by
  unfold Obligations.BswapRule
  refine ⟨fun s b hr hb hbyte => ?_, encodeChecked_bswap⟩
  have hop : low7 b = 5 := by rcases hbyte with rfl | rfl <;> decide
  rw [step_of_bswap hr hb hop, bswap32_eq_shifts]
  rfl

/-- Settles O32: an involution is a bijection, and the second of two `BSWAP` bytes undoes the first's reversal. -/
theorem bswapInvolution : Obligations.BswapInvolution := by
  unfold Obligations.BswapInvolution
  refine ⟨bswap32_involutive, bswap32_involutive.bijective, fun s b b' hr hb hb' hop hop' => ?_⟩
  rw [run_two_bswap hr hb hb' hop hop', bswap32_involutive]
  rfl

end Sys2Proof.Machine
end

section
/-! The statements on the three faults (spec/60_exceptions.md): when each is raised, what it records, and where the run stands
after it. -/

namespace Sys2Proof

/-- The four opcode values are the only ones that select an opcode (R58, R59). -/
theorem opcodeOf_eq_none_iff (v : BitVec 7) : opcodeOf v = none ↔ v ∉ ([5, 57, 102, 112] : List (BitVec 7)) := by
  constructor
  · intro ho hmem
    simp only [List.mem_cons, List.not_mem_nil, or_false] at hmem
    rcases hmem with rfl | rfl | rfl | rfl <;> cases ho
  · intro hmem
    cases ho : opcodeOf v with
    | none => rfl
    | some op =>
      rw [opcodeOf_some ho] at hmem
      exact absurd (by cases op <;> decide) hmem

/-- With a first byte present the Decoder answers `TruncatedInstruction` exactly at a `LOAD` or `WRITE` byte with too few bytes
left, and with that opcode and the cursor (R122). -/
theorem decode_truncated_iff {prog : List Byte} {c : Nat} {b : Byte} (hb : prog[c]? = some b) (v : BitVec 7) (k : Nat) :
    decode prog c = .truncatedInstruction v k ↔
      k = c ∧ v = low7 b ∧ (v = 57 ∧ prog.length < c + 5 ∨ v = 112 ∧ prog.length < c + 3) := by
  constructor
  · intro h
    obtain ⟨b', op, hb', ho, hv, hk, hop, hlen⟩ := decode_truncated h
    cases hb.symm.trans hb'
    refine ⟨hk, hv.trans (opcodeOf_some ho).symm, ?_⟩
    rcases hop with rfl | rfl
    · exact .inl ⟨hv, hlen⟩
    · exact .inr ⟨hv, hlen⟩
  · rintro ⟨rfl, rfl, ⟨hlow, hlen⟩ | ⟨hlow, hlen⟩⟩ <;> rw [hlow]
    · exact decode_of_opcode_short (op := .load) hb hlow hlen
    · exact decode_of_opcode_short (op := .write) hb hlow hlen

/-- A decoded `WRITE` names one of the cells 0 to 8191 (R56). -/
theorem decode_write_le {prog : List Byte} {c n : Nat} {a : Word} (h : decode prog c = .instr (.write a) n) :
    a.toNat ≤ 8191 := by
  obtain ⟨-, -, -, -, -, hwf⟩ := decode_instr h
  exact Nat.le_of_lt_succ (of_decide_eq_true hwf)

end Sys2Proof

namespace Sys2Proof.Machine

/-! ## The meanings that fault -/

theorem exec_write_of_gt {addr : Word} (s : State) (h : 65535 < addr.toNat) :
    exec (.write addr) s = .next (s.raise (.memoryOutOfRange addr)) := by
  rcases exec_write_cases addr s with ⟨hle, -⟩ | ⟨-, he⟩
  · omega
  · exact he

/-- An instruction that accesses a cell above 65535 takes the fault with the full address, and the access is not made (R31, R123). -/
theorem exec_of_effectiveAddress_gt {i : Instr} {s : State} {a : Word} (ha : effectiveAddress i s = some a)
    (h : 65535 < a.toNat) : exec i s = .next (s.raise (.memoryOutOfRange a)) := by
  cases i with
  | load imm => cases ha
  | read => cases ha; exact exec_read_of_gt h
  | write addr => cases ha; exact exec_write_of_gt s h
  | bswap => cases ha

/-- A meaning keeps `STATUS` and `FAULT`, or it is `READ` with an address out of range: a `WRITE` whose operand fits its field is
always in range (R106, R123). -/
theorem exec_fault_cases {i : Instr} {s t : State} (hwf : i.wellFormed = true) (h : exec i s = .next t) :
    (t.status = s.status ∧ t.fault = s.fault) ∨
      (i = .read ∧ 65535 < s.acc.toNat ∧ t = s.raise (.memoryOutOfRange s.acc)) := by
  obtain ⟨_, -, rfl⟩ | ⟨-, -, rfl⟩ | hread | ⟨_, -, -, rfl⟩ | ⟨addr, rfl, hout, -⟩ | ⟨-, rfl⟩ := exec_cases h
  · exact .inl ⟨rfl, rfl⟩
  · exact .inl ⟨rfl, rfl⟩
  · exact .inr hread
  · exact .inl ⟨rfl, rfl⟩
  · have hfits : addr.toNat < 2 ^ 13 := of_decide_eq_true hwf
    omega
  · exact .inl ⟨rfl, rfl⟩

/-! ## The steps that fault -/

/-- A running machine at a byte that selects no opcode takes `UnknownOpcode` (R121). -/
theorem step_of_no_opcode {s : State} {b : Byte} (hr : s.status = .running) (hb : s.prog[s.pc]? = some b)
    (ho : opcodeOf (low7 b) = none) : step s = .next (s.raise (.unknownOpcode (low7 b) s.pc)) := by
  obtain ⟨hpc, -⟩ := List.getElem?_eq_some_iff.mp hb
  exact step_unknown hr hpc (decode_of_no_opcode hb ho)

/-- A running machine at a `LOAD` or `WRITE` cut off by the end of the program takes `TruncatedInstruction` (R122). -/
theorem step_of_cut_off {s : State} {b : Byte} (hr : s.status = .running) (hb : s.prog[s.pc]? = some b)
    (hcut : low7 b = 57 ∧ s.prog.length < s.pc + 5 ∨ low7 b = 112 ∧ s.prog.length < s.pc + 3) :
    step s = .next (s.raise (.truncatedInstruction (low7 b) s.pc)) := by
  obtain ⟨hpc, -⟩ := List.getElem?_eq_some_iff.mp hb
  exact step_truncated hr hpc ((decode_truncated_iff hb _ _).mpr ⟨rfl, rfl, hcut⟩)

/-- A running machine at a byte of `READ` with an address out of range advances and takes `MemoryOutOfRange` (R105, R123). -/
theorem step_of_read_of_gt {s : State} {b : Byte} (hr : s.status = .running) (hb : s.prog[s.pc]? = some b)
    (hop : low7 b = 102) (h : 65535 < s.acc.toNat) :
    step s = .next ((s.advance (s.pc + 1)).raise (.memoryOutOfRange s.acc)) := by
  rw [step_of_read hr hb hop]
  exact exec_read_of_gt (s := s.advance (s.pc + 1)) h

/-- Everything a turn of a running machine can do to `FAULT`: keep it without ending `FAULTED`, raise what the Decoder answered
with `PC` where it was, or raise `READ`'s `MemoryOutOfRange` with `PC` past it (R120, R126). -/
theorem step_fault_cases {s t : State} (hr : s.status = .running) (h : step s = .next t) :
    (t.status ≠ .faulted ∧ t.fault = s.fault) ∨
      (∃ r k, decode s.prog s.pc = .unknownOpcode r k ∧ t = s.raise (.unknownOpcode r k)) ∨
      (∃ v k, decode s.prog s.pc = .truncatedInstruction v k ∧ t = s.raise (.truncatedInstruction v k)) ∨
      (decode s.prog s.pc = .instr .read (s.pc + 1) ∧ 65535 < s.acc.toNat ∧
        t = (s.advance (s.pc + 1)).raise (.memoryOutOfRange s.acc)) := by
  obtain ⟨hended, -⟩ | ⟨-, -, rfl⟩ | ⟨-, -, hunknown | htruncated | ⟨i, n, hd, hexec⟩⟩ := step_cases h
  · exact absurd hr hended
  · exact .inl ⟨by simp, rfl⟩
  · exact .inr (.inl hunknown)
  · exact .inr (.inr (.inl htruncated))
  · obtain ⟨-, -, -, rfl, -, hwf⟩ := decode_instr hd
    obtain ⟨hstatus, hfault⟩ | ⟨rfl, hout, rfl⟩ := exec_fault_cases hwf hexec
    · exact .inl ⟨by simp [hstatus, hr], hfault⟩
    · exact .inr (.inr (.inr ⟨hd, hout, rfl⟩))

/-! ## After the run has ended -/

/-- A run from a state that has ended stays in it: no turn leaves it (R16, R126; the answer itself is log 5's). -/
theorem run_of_ended {s t : State} {k : Nat} (hs : s.status ≠ .running) (h : Sys2Proof.core.run k s = .next t) : t = s := by
  refine run_induction (P := (· = s)) (fun u v hu huv => ?_) rfl h
  subst hu
  rw [step_ended hs] at huv
  cases huv
  rfl

/-- In `FAULTED` the host sees `STATUS` and `FAULT` and no final `ACC` and `PC` (R126, R157). -/
theorem hostView_faulted {s : State} (h : s.status = .faulted) :
    hostView s = { status := .faulted, fault := s.fault, final := none } := by
  simp only [hostView, h]

/-! ## The statements -/

/-- Settles O6: the Decoder's answer by its first byte, the step that raises it, and the end of the run there. -/
theorem truncationFaultsExactly : Obligations.TruncationFaultsExactly := by
  unfold Obligations.TruncationFaultsExactly
  refine ⟨fun prog c b hb => decode_truncated_iff hb, fun s b hr hb hcut => ?_⟩
  have hstep := step_of_cut_off hr hb hcut
  refine ⟨hstep, fun n u hrun => ?_⟩
  rw [run_succ n hstep] at hrun
  exact run_of_ended (by simp) hrun

/-- Settles O27: the fault of an access out of range, its converse for `READ` by the two things `READ` can do, and the 13 bits of
a decoded `WRITE` operand. -/
theorem outOfRangeAccessFaults : Obligations.OutOfRangeAccessFaults := by
  unfold Obligations.OutOfRangeAccessFaults
  refine ⟨fun i s a ha hout => exec_of_effectiveAddress_gt ha hout, fun s t hr h => ?_, fun prog c n a => decode_write_le⟩
  rcases exec_read_cases s with ⟨hin, he⟩ | ⟨hout, he⟩ <;> cases he.symm.trans h
  · simp [hr, Nat.not_le.mpr (Nat.lt_succ_of_le hin)]
  · simp [Nat.succ_le_of_lt hout]

/-- Settles O35: the inversion of a step's effect on `FAULT` gives the row of the table behind a record, and each row of the table
determines the step. -/
theorem faultsExactlyAsTabled : Obligations.FaultsExactlyAsTabled := by
  unfold Obligations.FaultsExactlyAsTabled
  refine ⟨fun s t f hr hnone h => ⟨fun hf => ?_, fun hrow => ?_⟩, fun s t f hr hnone h hf => ?_,
    rfl, fun _ _ => rfl, fun _ _ => rfl, fun _ => rfl⟩
  · obtain ⟨-, hkeep⟩ | ⟨r, k, hd, rfl⟩ | ⟨v, k, hd, rfl⟩ | ⟨hd, hout, rfl⟩ := step_fault_cases hr h
    · cases hf.symm.trans (hkeep.trans hnone)
    · cases hf
      obtain ⟨b, hb, ho, hraw, hcursor⟩ := decode_unknown hd
      exact ⟨b, hb, (opcodeOf_eq_none_iff _).mp ho, hraw, hcursor⟩
    · cases hf
      obtain ⟨b, _, hb, -⟩ := decode_truncated hd
      obtain ⟨hcursor, rfl, hcut⟩ := (decode_truncated_iff hb v k).mp hd
      exact ⟨b, hb, hcut, rfl, hcursor⟩
    · cases hf
      obtain ⟨b, hb, ho, -⟩ := decode_instr hd
      exact ⟨b, hb, opcodeOf_some ho, hout, rfl⟩
  · obtain ⟨b, hb, hrow⟩ := hrow
    cases f with
    | unknownOpcode r k =>
      obtain ⟨hillegal, rfl, rfl⟩ := hrow
      cases (step_of_no_opcode hr hb ((opcodeOf_eq_none_iff _).mpr hillegal)).symm.trans h
      rfl
    | truncatedInstruction v k =>
      obtain ⟨hcut, rfl, rfl⟩ := hrow
      cases (step_of_cut_off hr hb hcut).symm.trans h
      rfl
    | memoryOutOfRange a =>
      obtain ⟨hop, hout, rfl⟩ := hrow
      cases (step_of_read_of_gt hr hb hop hout).symm.trans h
      rfl
  · obtain ⟨-, hkeep⟩ | ⟨r, k, -, rfl⟩ | ⟨v, k, -, rfl⟩ | ⟨-, -, rfl⟩ := step_fault_cases hr h
    · cases hf.symm.trans (hkeep.trans hnone)
    · cases hf; rfl
    · cases hf; rfl
    · cases hf; rfl

/-- Settles O36: the three ways a step can end `FAULTED` are all `State.raise`, after the advance for `MemoryOutOfRange` only; what
follows holds of any state in `FAULTED`. -/
theorem faultEntry : Obligations.FaultEntry := by
  unfold Obligations.FaultEntry
  intro s t hr h ht
  have hfrozen (k : Nat) (u : State) (hrun : Sys2Proof.core.run k t = .next u) : u = t :=
    run_of_ended (by simp [ht]) hrun
  have hsnapshot (start stop : Nat) : snapshot t start stop = .refused .faulted := by
    rw [snapshot_refused (by simp [ht]), ht]
  have hview := hostView_faulted ht
  obtain ⟨hne, -⟩ | ⟨r, k, -, rfl⟩ | ⟨v, k, -, rfl⟩ | ⟨hd, -, rfl⟩ := step_fault_cases hr h
  · exact absurd ht hne
  · exact ⟨⟨_, rfl, rfl⟩, rfl, rfl, rfl, hfrozen, hview, hsnapshot⟩
  · exact ⟨⟨_, rfl, rfl⟩, rfl, rfl, rfl, hfrozen, hview, hsnapshot⟩
  · exact ⟨⟨_, rfl, .read, hd, rfl⟩, rfl, rfl, rfl, hfrozen, hview, hsnapshot⟩

end Sys2Proof.Machine
end

section
/-! The statements that every instruction, turn and run answers a next state, and that an ended run is frozen. -/

namespace Sys2Proof.Machine

theorem exec_next (i : Instr) (s : State) : ∃ t, exec i s = .next t := by
  cases i with
  | load imm => exact ⟨_, exec_load imm s⟩
  | read => rcases exec_read_cases s with ⟨-, he⟩ | ⟨-, he⟩ <;> exact ⟨_, he⟩
  | write addr => rcases exec_write_cases addr s with ⟨-, he⟩ | ⟨-, he⟩ <;> exact ⟨_, he⟩
  | bswap => exact ⟨_, exec_bswap s⟩

/-- Every turn answers a next state: the Decoder is called inside the program only, so it never answers outside its
precondition (R61, R80). -/
theorem step_next (s : State) : ∃ t, step s = .next t := by
  by_cases hr : s.status = .running
  · rcases Nat.lt_or_ge s.pc s.prog.length with hpc | hend
    · cases hd : decode s.prog s.pc with
      | instr i n => rw [step_decoded hr hpc hd]; exact exec_next i _
      | unknownOpcode r k => exact ⟨_, step_unknown hr hpc hd⟩
      | truncatedInstruction v k => exact ⟨_, step_truncated hr hpc hd⟩
      | outsideProgram k => exact absurd ((decode_outside_iff _ _ _).mp hd).1 (Nat.not_le.mpr hpc)
    · exact ⟨_, step_atEnd hr hend⟩
  · exact ⟨_, step_ended hr⟩

theorem run_next (k : Nat) (s : State) : ∃ t, Sys2Proof.core.run k s = .next t := by
  induction k generalizing s with
  | zero => exact ⟨s, run_zero s⟩
  | succ k ih =>
    obtain ⟨u, hu⟩ := step_next s
    rw [run_succ k hu]
    exact ih u

/-- An ended run answers the state it ended in, for any number of turns (R16; the answer itself is log 5's). -/
theorem run_ended {s : State} (k : Nat) (hs : s.status ≠ .running) : Sys2Proof.core.run k s = .next s := by
  obtain ⟨t, ht⟩ := run_next k s
  rw [ht, run_of_ended hs ht]

/-- Settles O18: each meaning answers a next state, so each turn does, so by induction each run does. -/
theorem stepAlwaysAnswersNext : Obligations.StepAlwaysAnswersNext := by
  unfold Obligations.StepAlwaysAnswersNext
  exact ⟨step_next, run_next⟩

/-- Settles O19: a run answers some state, and a run from an ended state stays in it. -/
theorem endedRunIsFrozen : Obligations.EndedRunIsFrozen := by
  unfold Obligations.EndedRunIsFrozen
  exact fun s k hs => run_ended k hs

/-- A turn of a running machine at a decoded instruction is its meaning after the advance, with no premise on `PC`: the Decoder
answers an instruction inside the program only. -/
theorem step_of_decode {s : State} {i : Instr} {n : Nat} (hr : s.status = .running) (hd : decode s.prog s.pc = .instr i n) :
    step s = exec i (s.advance n) := by
  obtain ⟨b, hb, -⟩ := decode_instr hd
  obtain ⟨hpc, -⟩ := List.getElem?_eq_some_iff.mp hb
  exact step_decoded hr hpc hd

/-- Settles O17: the turn's branch for a decoded instruction, and the next offset the Decoder answers. -/
theorem stepRunsDecodedInstruction : Obligations.StepRunsDecodedInstruction := by
  unfold Obligations.StepRunsDecodedInstruction
  intro s i n hr hd
  obtain ⟨-, -, -, hn, -⟩ := decode_instr hd
  exact ⟨step_of_decode hr hd, hn⟩

end Sys2Proof.Machine
end

section
/-! The statements on what each of the four instructions completes with and leaves unchanged. -/

namespace Sys2Proof.Machine

/-- No meaning changes `PC` or the program: `PC` moves by the advance before it only (R81, R90). -/
theorem exec_frame {i : Instr} {s t : State} (h : exec i s = .next t) : t.pc = s.pc ∧ t.prog = s.prog := by
  obtain ⟨_, -, rfl⟩ | ⟨-, -, rfl⟩ | ⟨-, -, rfl⟩ | ⟨_, -, -, rfl⟩ | ⟨_, -, -, rfl⟩ | ⟨-, rfl⟩ := exec_cases h <;>
    exact ⟨rfl, rfl⟩

/-- Of the four meanings only `WRITE` changes the memory, and only at an address in range (R15, R106). -/
theorem exec_mem_cases {i : Instr} {s t : State} (h : exec i s = .next t) :
    t.mem = s.mem ∨ ∃ addr, i = .write addr ∧ addr.toNat ≤ 65535 ∧ t.mem = s.mem.write addr.toNat s.acc := by
  obtain ⟨_, -, rfl⟩ | ⟨-, -, rfl⟩ | ⟨-, -, rfl⟩ | ⟨addr, rfl, hin, rfl⟩ | ⟨_, -, -, rfl⟩ | ⟨-, rfl⟩ := exec_cases h
  · exact .inl rfl
  · exact .inl rfl
  · exact .inl rfl
  · exact .inr ⟨addr, rfl, hin, rfl⟩
  · exact .inl rfl
  · exact .inl rfl

/-- A meaning that changes `ACC` is not `WRITE`'s and raises no fault (R12). -/
theorem exec_acc_cases {i : Instr} {s t : State} (h : exec i s = .next t) :
    t.acc = s.acc ∨ (i.opcode ≠ .write ∧ t.status = s.status) := by
  obtain ⟨_, rfl, rfl⟩ | ⟨rfl, -, rfl⟩ | ⟨-, -, rfl⟩ | ⟨_, -, -, rfl⟩ | ⟨_, -, -, rfl⟩ | ⟨rfl, rfl⟩ := exec_cases h
  · exact .inr ⟨nofun, rfl⟩
  · exact .inr ⟨nofun, rfl⟩
  · exact .inl rfl
  · exact .inl rfl
  · exact .inl rfl
  · exact .inr ⟨nofun, rfl⟩

/-- Settles O23: `LOAD`'s one outcome. -/
theorem execLoadCompletes : Obligations.ExecLoadCompletes := by
  unfold Obligations.ExecLoadCompletes
  exact exec_load

/-- Settles O24: `READ`'s outcome in range. -/
theorem execReadCompletes : Obligations.ExecReadCompletes := by
  unfold Obligations.ExecReadCompletes
  exact fun s h => exec_read_of_le h

/-- Settles O25: `WRITE`'s outcome in range, each cell by the read-after-write law. -/
theorem execWriteCompletes : Obligations.ExecWriteCompletes := by
  unfold Obligations.ExecWriteCompletes
  intro addr s h
  refine ⟨_, exec_write_of_le s h, fun a ha x => ?_, rfl⟩
  cases ha
  rw [State.memWrite_mem, Memory.read_write]
  rfl

/-- Settles O26: byte k of the reversed `ACC` is byte 3 - k of the old one, for the four k. -/
theorem execBswapCompletes : Obligations.ExecBswapCompletes := by
  unfold Obligations.ExecBswapCompletes
  exact fun s => ⟨_, exec_bswap s, bswap32_byte s.acc (k := 3) (by decide), bswap32_byte s.acc (k := 2) (by decide),
    bswap32_byte s.acc (k := 1) (by decide), bswap32_byte s.acc (k := 0) (by decide)⟩

/-- Settles O33: none of the three is `WRITE`, so the memory stays, and each is well formed or writes no fault but `READ`'s. -/
theorem frameOfRegisterInstructions : Obligations.FrameOfRegisterInstructions := by
  unfold Obligations.FrameOfRegisterInstructions
  intro i s t hi h
  obtain ⟨hpc, hprog⟩ := exec_frame h
  have hmem : t.mem = s.mem := by
    obtain hmem | ⟨addr, rfl, -⟩ := exec_mem_cases h
    · exact hmem
    · rcases hi with ⟨_, hi⟩ | hi | hi <;> cases hi
  refine ⟨fun x => by rw [hmem], hmem, hpc, hprog, ?_⟩
  rcases hi with ⟨imm, rfl⟩ | rfl | rfl
  · cases (exec_load imm s).symm.trans h
    exact .inl ⟨rfl, rfl⟩
  · rcases exec_read_cases s with ⟨-, he⟩ | ⟨hout, he⟩ <;> cases he.symm.trans h
    · exact .inl ⟨rfl, rfl⟩
    · exact .inr ⟨rfl, hout, rfl, rfl, rfl⟩
  · cases (exec_bswap s).symm.trans h
    exact .inl ⟨rfl, rfl⟩

/-- Settles O34: `WRITE`'s two outcomes; in range another cell is read after the write, out of range nothing is stored. -/
theorem frameOfWrite : Obligations.FrameOfWrite := by
  unfold Obligations.FrameOfWrite
  intro addr s t h
  rcases exec_write_cases addr s with ⟨-, he⟩ | ⟨hout, he⟩ <;> cases he.symm.trans h
  · refine ⟨fun a ha x hx => ?_, rfl, rfl, rfl, .inl ⟨rfl, rfl⟩⟩
    cases ha
    exact Memory.read_write_other _ _ hx
  · exact ⟨fun _ _ _ _ => rfl, rfl, rfl, rfl, .inr ⟨hout, rfl, rfl, rfl⟩⟩

end Sys2Proof.Machine
end

section
/-! The statements on what one step of the machine changes, field by field (spec/10_state.md and spec/20_memory.md). -/

namespace Sys2Proof

/-- The operand of a decoded `WRITE` is the 13-bit field of the bytes it was decoded from (R56). -/
theorem decode_write_operand {prog : List Byte} {c n : Nat} {a : Word} (h : decode prog c = .instr (.write a) n) :
    a = writeOperand (progWord prog c 3) := by
  obtain ⟨b, hb, ho, rfl, hlen, -⟩ := decode_instr h
  cases h.symm.trans (decode_of_opcode (op := .write) hb (opcodeOf_some ho) hlen)
  rfl

/-- The Decoder reads the length of the program and the bytes at the cursor and the four after it only (R35, R61). -/
theorem decode_congr {p q : List Byte} {c : Nat} (hlen : p.length = q.length) (h : ∀ j, j ≤ 4 → p[c + j]? = q[c + j]?) :
    decode p c = decode q c := by
  have hfirst : p[c]? = q[c]? := h 0 (by decide)
  have hword {n : Nat} (hn : n ≤ 5) : progWord p c n = progWord q c n := by
    refine congrArg leWord (List.ext_getElem? fun j => ?_)
    rw [List.getElem?_take, List.getElem?_take, List.getElem?_drop, List.getElem?_drop]
    split
    · exact h j (by omega)
    · rfl
  simp only [decode, requireBytes, hfirst, hlen, hword (n := 5) (by decide), hword (n := 3) (by decide)]

end Sys2Proof

namespace Sys2Proof.Machine

/-- A decoded `WRITE` always stores: its 13-bit operand is in range (R106). -/
theorem step_of_decoded_write {s : State} {a : Word} {n : Nat} (hr : s.status = .running)
    (hd : decode s.prog s.pc = .instr (.write a) n) : step s = .next ((s.advance n).memWrite a s.acc) := by
  have hle := decode_write_le hd
  exact (step_of_decode hr hd).trans (exec_write_of_le (s.advance n) (by omega))

/-- A turn writes `STATUS` and `FAULT` at most, or it decodes an instruction and applies it (R81, R84, R126). -/
theorem step_decoded_cases {s t : State} (h : step s = .next t) :
    (t.acc = s.acc ∧ t.pc = s.pc ∧ t.mem = s.mem ∧ t.prog = s.prog) ∨
      (s.status = .running ∧ ∃ i n, decode s.prog s.pc = .instr i n ∧ exec i (s.advance n) = .next t) := by
  obtain ⟨-, rfl⟩ | ⟨-, -, rfl⟩ | ⟨hr, -, ⟨_, _, -, rfl⟩ | ⟨_, _, -, rfl⟩ | hdecoded⟩ := step_cases h
  · exact .inl ⟨rfl, rfl, rfl, rfl⟩
  · exact .inl ⟨rfl, rfl, rfl, rfl⟩
  · exact .inl ⟨rfl, rfl, rfl, rfl⟩
  · exact .inl ⟨rfl, rfl, rfl, rfl⟩
  · exact .inr ⟨hr, hdecoded⟩

/-- A turn leaves `PC`, or advances it past the instruction it decoded (R14). -/
theorem step_pc_cases {s t : State} (h : step s = .next t) :
    t.pc = s.pc ∨ (s.status = .running ∧ ∃ i n, decode s.prog s.pc = .instr i n ∧ t.pc = n) := by
  obtain ⟨-, hpc, -⟩ | ⟨hr, i, n, hd, hexec⟩ := step_decoded_cases h
  · exact .inl hpc
  · exact .inr ⟨hr, i, n, hd, (exec_frame hexec).1⟩

/-- A turn leaves the memory, or stores `ACC` in the cell of the `WRITE` it decoded (R15). -/
theorem step_mem_cases {s t : State} (h : step s = .next t) :
    t.mem = s.mem ∨ (s.status = .running ∧ ∃ a n, decode s.prog s.pc = .instr (.write a) n ∧
      t.mem = s.mem.write a.toNat s.acc) := by
  obtain ⟨-, -, hmem, -⟩ | ⟨hr, i, n, hd, hexec⟩ := step_decoded_cases h
  · exact .inl hmem
  · obtain hmem | ⟨a, rfl, -, hmem⟩ := exec_mem_cases hexec
    · exact .inl hmem
    · exact .inr ⟨hr, a, n, hd, hmem⟩

/-- A turn leaves `ACC`, or decodes an instruction other than `WRITE` and stays running (R12). -/
theorem step_acc_cases {s t : State} (h : step s = .next t) :
    t.acc = s.acc ∨ (s.status = .running ∧ t.status = .running ∧
      ∃ i n, decode s.prog s.pc = .instr i n ∧ i.opcode ≠ .write) := by
  obtain ⟨hacc, -⟩ | ⟨hr, i, n, hd, hexec⟩ := step_decoded_cases h
  · exact .inl hacc
  · obtain hacc | ⟨hop, hstatus⟩ := exec_acc_cases hexec
    · exact .inl hacc
    · exact .inr ⟨hr, hstatus.trans hr, i, n, hd, hop⟩

theorem step_prog {s t : State} (h : step s = .next t) : t.prog = s.prog := by
  obtain ⟨-, -, -, hprog⟩ | ⟨-, i, n, -, hexec⟩ := step_decoded_cases h
  · exact hprog
  · exact (exec_frame hexec).2

theorem run_prog {k : Nat} {s t : State} (h : Sys2Proof.core.run k s = .next t) : t.prog = s.prog :=
  run_induction (P := fun u => u.prog = s.prog) (fun _ _ hu huv => (step_prog huv).trans hu) rfl h

theorem step_pcInBounds {s t : State} (hs : s.PcInBounds) (h : step s = .next t) : t.PcInBounds := by
  unfold State.PcInBounds at *
  rw [step_prog h]
  obtain hpc | ⟨-, i, n, hd, hpc⟩ := step_pc_cases h
  · rwa [hpc]
  · obtain ⟨-, -, -, -, hn, -⟩ := decode_instr hd
    rwa [hpc]

theorem startRun_pcInBounds (prog : List Byte) : (State.startRun prog).PcInBounds := Nat.zero_le _

theorem step_memCanonical {s t : State} (hs : s.MemCanonical) (h : step s = .next t) : t.MemCanonical := by
  unfold State.MemCanonical at *
  obtain hmem | ⟨-, a, n, hd, hmem⟩ := step_mem_cases h
  · rwa [hmem]
  · have hle := decode_write_le hd
    rw [hmem]
    exact Memory.wf_write _ (by unfold Config.memCells; omega) hs

theorem step_highCellsZero {s t : State} (hs : s.HighCellsZero) (h : step s = .next t) : t.HighCellsZero := by
  intro x hx
  obtain hmem | ⟨-, a, n, hd, hmem⟩ := step_mem_cases h
  · rw [hmem, hs x hx]
  · have hle := decode_write_le hd
    rw [hmem, Memory.read_write_other _ _ (by omega), hs x hx]

/-- No meaning reads or writes the program, so it does the same with any other one in the store (R35). -/
theorem exec_withProg {i : Instr} {s t : State} (p : List Byte) (h : exec i s = .next t) :
    exec i { s with prog := p } = .next { t with prog := p } := by
  obtain ⟨_, rfl, rfl⟩ | ⟨rfl, hin, rfl⟩ | ⟨rfl, hout, rfl⟩ | ⟨_, rfl, hin, rfl⟩ | ⟨_, rfl, hout, rfl⟩ | ⟨rfl, rfl⟩ :=
    exec_cases h
  · rfl
  · exact exec_read_of_le (s := { s with prog := p }) hin
  · exact exec_read_of_gt (s := { s with prog := p }) hout
  · exact exec_write_of_le _ hin
  · exact exec_write_of_gt _ hout
  · rfl

/-- Settles O37: a decoded `WRITE` stores and does nothing else. -/
theorem decodedWriteNeverFaults : Obligations.DecodedWriteNeverFaults := by
  unfold Obligations.DecodedWriteNeverFaults
  intro s t a n hr hd h
  cases (step_of_decoded_write hr hd).symm.trans h
  exact ⟨hr, rfl⟩

/-- Settles O38: the turn on each answer of the Decoder, and the bound by the bytes a decoded instruction has. -/
theorem pcAdvancesByLength : Obligations.PcAdvancesByLength := by
  unfold Obligations.PcAdvancesByLength
  refine ⟨fun s t b hr hb h => ?_, fun s t => step_pcInBounds, startRun_pcInBounds⟩
  obtain ⟨hpc, -⟩ := List.getElem?_eq_some_iff.mp hb
  cases hd : decode s.prog s.pc with
  | instr i n =>
    obtain ⟨-, -, -, hn, -⟩ := decode_instr hd
    refine ⟨(exec_frame ((step_of_decode hr hd).symm.trans h)).1, ?_⟩
    cases i <;> exact hn
  | unknownOpcode r k =>
    cases (step_unknown hr hpc hd).symm.trans h
    rfl
  | truncatedInstruction v k =>
    cases (step_truncated hr hpc hd).symm.trans h
    rfl
  | outsideProgram k => exact absurd ((decode_outside_iff _ _ _).mp hd).1 (Nat.not_le.mpr hpc)

/-- Settles O39: the inversion of a step's effect on the memory, and the store of a decoded `WRITE` at its 13-bit operand. -/
theorem onlyWriteChangesMemory : Obligations.OnlyWriteChangesMemory := by
  unfold Obligations.OnlyWriteChangesMemory
  refine ⟨fun s t x h hne => ?_, fun s t addr n hr hd h => ?_⟩
  · obtain hmem | ⟨hr, a, n, hd, -⟩ := step_mem_cases h
    · exact absurd (by rw [hmem]) hne
    · obtain ⟨b, hb, ho, -⟩ := decode_instr hd
      exact ⟨hr, ⟨b, hb, opcodeOf_some ho⟩, a, n, hd⟩
  · cases (step_of_decoded_write hr hd).symm.trans h
    refine ⟨addr, rfl, ?_, decode_write_le hd, fun x => ?_⟩
    · exact (congrArg BitVec.toNat (decode_write_operand hd)).trans (writeOperand_toNat _)
    · rw [State.memWrite_mem, State.advance_mem, Memory.read_write]

/-- Settles O40: the inversion of a step's effect on `ACC`; an opcode other than `WRITE` is one of three. -/
theorem onlyThreeInstructionsChangeAcc : Obligations.OnlyThreeInstructionsChangeAcc := by
  unfold Obligations.OnlyThreeInstructionsChangeAcc
  intro s t h hne
  obtain hacc | ⟨hr, ht, i, n, hd, hop⟩ := step_acc_cases h
  · exact absurd hacc hne
  · obtain ⟨b, hb, ho, -⟩ := decode_instr hd
    refine ⟨hr, ht, b, hb, ?_⟩
    rw [opcodeOf_some ho]
    cases hi : i.opcode with
    | write => exact absurd hi hop
    | load => decide
    | read => decide
    | bswap => decide

/-- Settles O41: no step changes the program, so no run does. -/
theorem programStoreConstant : Obligations.ProgramStoreConstant := by
  unfold Obligations.ProgramStoreConstant
  exact fun k s t h => run_prog h

/-- Settles O42: with the other program the turn takes the same branch, as the length and the Decoder's answer are the same, and
no branch's effect reads the program. -/
theorem stepReadsOnlyItsFetchWindow : Obligations.StepReadsOnlyItsFetchWindow := by
  unfold Obligations.StepReadsOnlyItsFetchWindow
  intro s t p hlen hwindow h
  have hdec : decode p s.pc = decode s.prog s.pc := decode_congr hlen hwindow
  obtain ⟨hended, rfl⟩ | ⟨hr, hend, rfl⟩ | ⟨hr, hpc, ⟨r, k, hd, rfl⟩ | ⟨v, k, hd, rfl⟩ | ⟨i, n, hd, hexec⟩⟩ := step_cases h
  · exact step_ended (s := { t with prog := p }) hended
  · exact step_atEnd (s := { s with prog := p }) hr (hlen.trans_le hend)
  · exact step_unknown (s := { s with prog := p }) hr (hpc.trans_eq hlen.symm) (hdec.trans hd)
  · exact step_truncated (s := { s with prog := p }) hr (hpc.trans_eq hlen.symm) (hdec.trans hd)
  · exact (step_of_decode (s := { s with prog := p }) hr (hdec.trans hd)).trans (exec_withProg p hexec)

/-- Settles O43: a step's one store is at an existing cell. -/
theorem memoryStaysCanonical : Obligations.MemoryStaysCanonical := by
  unfold Obligations.MemoryStaysCanonical
  exact fun s t => step_memCanonical

/-- Settles O44: a step's one store is at a cell of at most 8191. -/
theorem highCellsStayZero : Obligations.HighCellsStayZero := by
  unfold Obligations.HighCellsStayZero
  exact fun s t => step_highCellsZero

end Sys2Proof.Machine
end

section
/-! The statements on the invariant of a run (spec/10_state.md, spec/60_exceptions.md) and what the host reads at its end. -/

namespace Sys2Proof.Machine

/-! ## The fault record -/

/-- Where the fault record is right, `FAULT` is none exactly outside `FAULTED` (R17). -/
theorem State.FaultRecordRight.fault_eq_none_iff {s : State} (h : s.FaultRecordRight) :
    s.fault = none ↔ s.status ≠ .faulted := by
  unfold State.FaultRecordRight at h
  cases hf : s.fault with
  | none => simpa [hf] using h
  | some f =>
    rw [hf] at h
    obtain ⟨hfaulted, -⟩ := h
    simp [hfaulted]

theorem State.faultRecordRight_of_none {s : State} (hf : s.fault = none) (hs : s.status ≠ .faulted) :
    s.FaultRecordRight := by
  simpa only [State.FaultRecordRight, hf] using hs

/-- Raising a fault that the machine's state explains leaves a right record. -/
theorem State.faultRecordRight_raise {s : State} {f : Fault} (h : (s.raise f).Explains f) :
    (s.raise f).FaultRecordRight := ⟨rfl, h⟩

/-- Each of the three faults a step raises stands behind what it records (R120, R126). -/
theorem step_faultRecordRight {s t : State} (hs : s.FaultRecordRight) (h : step s = .next t) : t.FaultRecordRight := by
  by_cases hr : s.status = .running
  · have hnone : s.fault = none := hs.fault_eq_none_iff.mpr (by simp [hr])
    obtain ⟨hne, hkeep⟩ | ⟨r, k, hd, rfl⟩ | ⟨v, k, hd, rfl⟩ | ⟨hd, hout, rfl⟩ := step_fault_cases hr h
    · exact State.faultRecordRight_of_none (hkeep.trans hnone) hne
    · obtain ⟨-, -, -, -, hcursor⟩ := decode_unknown hd
      exact State.faultRecordRight_raise ⟨hcursor, hd⟩
    · obtain ⟨-, -, -, -, -, hcursor, -⟩ := decode_truncated hd
      exact State.faultRecordRight_raise ⟨hcursor, hd⟩
    · exact State.faultRecordRight_raise ⟨rfl, hout, s.pc, rfl, hd⟩
  · cases (step_ended hr).symm.trans h
    exact hs

/-! ## The invariant -/

theorem step_haltedAtEnd {s t : State} (hpc : s.PcInBounds) (hs : s.HaltedAtEnd) (h : step s = .next t) :
    t.HaltedAtEnd := by
  by_cases hr : s.status = .running
  · intro ht
    obtain ⟨hend, rfl⟩ := step_to_halted hr h ht
    exact Nat.le_antisymm hpc hend
  · cases (step_ended hr).symm.trans h
    exact hs

theorem step_inv {s t : State} (hs : s.Inv) (h : step s = .next t) : t.Inv where
  pcInBounds := step_pcInBounds hs.pcInBounds h
  memCanonical := step_memCanonical hs.memCanonical h
  highCellsZero := step_highCellsZero hs.highCellsZero h
  haltedAtEnd := step_haltedAtEnd hs.pcInBounds hs.haltedAtEnd h
  faultRecordRight := step_faultRecordRight hs.faultRecordRight h

theorem startRun_inv (prog : List Byte) : (State.startRun prog).Inv where
  pcInBounds := startRun_pcInBounds prog
  memCanonical := Memory.wf_reset
  highCellsZero := fun a _ => State.startRun_mem_read prog a
  haltedAtEnd := nofun
  faultRecordRight := State.faultRecordRight_of_none rfl nofun

/-- The invariant holds of every state a run from reset reaches. -/
theorem run_startRun_inv {prog : List Byte} {k : Nat} {t : State}
    (h : Sys2Proof.core.run k (State.startRun prog) = .next t) : t.Inv :=
  run_induction (fun _ _ => step_inv) (startRun_inv prog) h

/-- Settles O46: each of the five parts is kept by every step, the halt at the end with the help of the bound on `PC`. -/
theorem invariantKeptByEveryStep : Obligations.InvariantKeptByEveryStep := by
  unfold Obligations.InvariantKeptByEveryStep
  exact fun s t => step_inv

/-- Settles O45: the reset state is the start of the empty program's run. -/
theorem invariantAtReset : Obligations.InvariantAtReset := by
  unfold Obligations.InvariantAtReset
  exact ⟨State.startRun_nil ▸ startRun_inv [], startRun_inv⟩

/-- Settles O53: what the host sees in each status, and `FAULT` in `HALTED` by the right record. -/
theorem hostViewByStatus : Obligations.HostViewByStatus := by
  unfold Obligations.HostViewByStatus
  refine ⟨fun s hs hright => ?_, fun s => hostView_faulted⟩
  have hnone : s.fault = none := hright.fault_eq_none_iff.mpr (by simp [hs])
  simp only [hostView, hs, hnone]

end Sys2Proof.Machine
end

section
/-! The statements on the end of every run (R88, R155). -/

namespace Sys2Proof.Machine

/-- A turn that leaves the machine running has run an instruction: `PC` has grown and is inside the program or at its end. -/
theorem step_running_pc {s t : State} (h : step s = .next t) (ht : t.status = .running) :
    s.pc < t.pc ∧ t.pc ≤ s.prog.length := by
  obtain ⟨hended, rfl⟩ | ⟨-, -, rfl⟩ | ⟨-, -, ⟨_, _, -, rfl⟩ | ⟨_, _, -, rfl⟩ | ⟨i, n, hd, hexec⟩⟩ := step_cases h
  · exact absurd ht hended
  · cases ht
  · cases ht
  · cases ht
  · obtain ⟨-, -, -, hn, hlen, -⟩ := decode_instr hd
    have hpc : t.pc = n := (exec_frame hexec).1
    have hpos := i.length_pos
    omega

/-- k turns that leave the machine running have run k instructions, each of at least one byte of the program (R88). -/
theorem run_running_pc {k : Nat} {s t : State} (h : Sys2Proof.core.run k s = .next t) (ht : t.status = .running) :
    s.pc + k ≤ t.pc ∧ t.pc ≤ max s.pc s.prog.length := by
  induction k generalizing s with
  | zero =>
    cases (run_zero s).symm.trans h
    omega
  | succ k ih =>
    obtain ⟨u, hu⟩ := step_next s
    rw [run_succ k hu] at h
    have hur : u.status = .running := by
      by_contra hended
      rw [run_of_ended hended h] at ht
      exact hended ht
    obtain ⟨hlt, hle⟩ := step_running_pc hu hur
    obtain ⟨hlow, hhigh⟩ := ih h
    rw [step_prog hu] at hhigh
    omega

/-- From any state the run has ended within one turn more than the bytes left: a machine still running then would have passed the
end of the program (R88). -/
theorem run_ends (s : State) : ∃ t, Sys2Proof.core.run (s.prog.length - s.pc + 1) s = .next t ∧ t.Ended := by
  obtain ⟨t, h⟩ := run_next (s.prog.length - s.pc + 1) s
  refine ⟨t, h, fun ht => ?_⟩
  obtain ⟨hlow, hhigh⟩ := run_running_pc h ht
  omega

theorem State.Ended.halted_iff {s : State} (h : s.Ended) : s.status = .halted ↔ s.status ≠ .faulted := by
  cases hs : s.status with
  | running => exact absurd hs h
  | halted => decide
  | faulted => decide

/-- The turns that `runProgram` asks for are enough: it answers an ended state with the invariant, and the program in the store. -/
theorem runProgram_ends (prog : List Byte) : ∃ t, runProgram prog = .next t ∧ t.Ended ∧ t.Inv ∧ t.prog = prog := by
  obtain ⟨t, h, hended⟩ := run_ends (State.startRun prog)
  exact ⟨t, h, hended, run_startRun_inv h, run_prog h⟩

/-- Settles O22: each turn that leaves the machine running moves `PC` up inside the program, so turns beyond the bytes left end
the run. -/
theorem everyRunEnds : Obligations.EveryRunEnds := by
  unfold Obligations.EveryRunEnds
  refine ⟨fun prog k t h ht => ?_, fun s => ?_, fun prog => ?_⟩
  · obtain ⟨hlow, hhigh⟩ := run_running_pc h ht
    simp only [State.startRun_pc, State.startRun_prog] at hlow hhigh
    omega
  · obtain ⟨t, h, hended⟩ := run_ends s
    exact ⟨_, t, Nat.le_refl _, h, hended⟩
  · obtain ⟨t, h, hended, -⟩ := runProgram_ends prog
    exact ⟨_, t, Nat.le_refl _, h, hended⟩

/-- Settles O50: a program's run answers one ended state, with the invariant: halted is not faulted, which is no fault recorded,
and stands at the end of the program. -/
theorem runEndsNormallyIffNoFault : Obligations.RunEndsNormallyIffNoFault := by
  unfold Obligations.RunEndsNormallyIffNoFault
  refine ⟨fun prog => exists_congr fun t => and_congr_right fun h => ?_, fun prog t h ht => ?_⟩ <;>
    obtain ⟨u, hu, hended, hinv, hprog⟩ := runProgram_ends prog <;> cases hu.symm.trans h
  · rw [hended.halted_iff, hinv.faultRecordRight.fault_eq_none_iff]
  · have hne : t.status ≠ .faulted := hended.halted_iff.mp ht
    exact ⟨hprog ▸ hinv.haltedAtEnd ht, hinv.faultRecordRight.fault_eq_none_iff.mpr hne, hprog⟩

end Sys2Proof.Machine
end

section
/-! The statements on lists of instructions applied in order, and the runs of their encodings (R42, R72, R87, R90). -/

namespace Sys2Proof.Machine

/-! ## Applying one instruction and a list of them -/

theorem applyInstr_next (i : Instr) (s : State) : ∃ t, applyInstr i s = .next t := by
  by_cases hr : s.status = .running
  · rw [applyInstr_running hr]
    exact exec_next i _
  · exact ⟨s, applyInstr_ended hr⟩

/-- An ended machine stays as it is; a running one advances past the instruction and does what it means (R16, R81). -/
theorem applyInstr_cases {i : Instr} {s t : State} (h : applyInstr i s = .next t) :
    t = s ∨ exec i (s.advance (s.pc + i.length)) = .next t := by
  by_cases hr : s.status = .running
  · exact .inr ((applyInstr_running hr).symm.trans h)
  · cases (applyInstr_ended hr).symm.trans h
    exact .inl rfl

theorem applyAll_next (is : List Instr) (s : State) : ∃ t, applyAll is s = .next t := by
  induction is generalizing s with
  | nil => exact ⟨s, rfl⟩
  | cons i is ih =>
    obtain ⟨u, hu⟩ := applyInstr_next i s
    rw [applyAll_cons hu]
    exact ih u

/-- What holds at the start and is kept by each instruction of the list holds after all of them. -/
theorem applyAll_induction {P : State → Prop} {is : List Instr}
    (hstep : ∀ i ∈ is, ∀ s t, P s → applyInstr i s = .next t → P t) {s t : State} (h0 : P s)
    (h : applyAll is s = .next t) : P t := by
  induction is generalizing s with
  | nil => cases h; exact h0
  | cons i is ih =>
    obtain ⟨u, hu⟩ := applyInstr_next i s
    rw [applyAll_cons hu] at h
    exact ih (fun j hj => hstep j (List.mem_cons_of_mem i hj)) (hstep i List.mem_cons_self s u h0 hu) h

theorem applyAll_ended (is : List Instr) {s : State} (hs : s.status ≠ .running) : applyAll is s = .next s := by
  obtain ⟨t, ht⟩ := applyAll_next is s
  rw [ht]
  refine congrArg _ (applyAll_induction (P := (· = s)) (fun i _ u v hu huv => ?_) rfl ht)
  subst hu
  cases (applyInstr_ended hs).symm.trans huv
  rfl

/-- An instruction leaves the memory, or it is `WRITE` and stores `ACC` in its cell. -/
theorem applyInstr_mem_cases {i : Instr} {s t : State} (h : applyInstr i s = .next t) :
    t.mem = s.mem ∨ ∃ a, i = .write a ∧ t.mem = s.mem.write a.toNat s.acc := by
  obtain rfl | hexec := applyInstr_cases h
  · exact .inl rfl
  · obtain hmem | ⟨a, hi, -, hmem⟩ := exec_mem_cases hexec
    · exact .inl hmem
    · exact .inr ⟨a, hi, hmem⟩

/-- A cell that no instruction of the list writes is as before (R42). -/
theorem applyAll_mem_read {is : List Instr} {s t : State} {x : Nat} (hx : ∀ a, .write a ∈ is → a.toNat ≠ x)
    (h : applyAll is s = .next t) : t.mem.read x = s.mem.read x := by
  refine applyAll_induction (P := fun u => u.mem.read x = s.mem.read x) (fun i hi u v hu huv => ?_) rfl h
  obtain hmem | ⟨a, rfl, hmem⟩ := applyInstr_mem_cases huv
  · rw [hmem, hu]
  · rw [hmem, Memory.read_write_other _ _ (hx a hi).symm, hu]

/-- Settles O47: the `WRITE` stores `ACC`, and the instructions after it keep a cell that none of them writes. -/
theorem cellHoldsLatestWrite : Obligations.CellHoldsLatestWrite := by
  unfold Obligations.CellHoldsLatestWrite
  have hkeep (addr : Word) (is : List Instr) (s t : State) (hother : ∀ a, .write a ∈ is → a ≠ addr)
      (h : applyAll is s = .next t) : t.mem.read addr.toNat = s.mem.read addr.toNat :=
    applyAll_mem_read (fun a ha heq => hother a ha (BitVec.eq_of_toNat_eq heq)) h
  refine ⟨fun addr is s t hin hr hother h => ?_, hkeep⟩
  rw [applyAll_cons ((applyInstr_running hr).trans (exec_write_of_le _ hin))] at h
  rw [hkeep addr is _ t hother h]
  exact Memory.read_write_same _ _ _

/-! ## Running the encodings -/

/-- Where a well-formed instruction's encoding stands at `PC`, one turn is applying it (R81). -/
theorem step_eq_applyInstr {i : Instr} {pre post : List Byte} {s : State} (hwf : i.wellFormed = true)
    (hprog : s.prog = pre ++ encode i ++ post) (hpc : s.pc = pre.length) : step s = applyInstr i s := by
  by_cases hr : s.status = .running
  · have hd : decode s.prog s.pc = .instr i (s.pc + i.length) := by
      rw [hprog, hpc, decode_encode pre post hwf, encode_length]
    rw [step_of_decode hr hd, applyInstr_running hr]
  · rw [step_ended hr, applyInstr_ended hr]

/-- Fetching and decoding the encodings of a list refines applying it: a commuting square per instruction while the machine runs,
and nothing on either side once it has ended (R87, R90). -/
theorem run_eq_applyAll {is : List Instr} {pre post : List Byte} {s : State} (hwf : ∀ i ∈ is, i.wellFormed = true)
    (hprog : s.prog = pre ++ encodeAll is ++ post) (hpc : s.pc = pre.length) :
    Sys2Proof.core.run is.length s = applyAll is s := by
  induction is generalizing pre s with
  | nil => rfl
  | cons i is ih =>
    by_cases hr : s.status = .running
    · have hhead : s.prog = pre ++ encode i ++ (encodeAll is ++ post) := by
        rw [hprog, encodeAll]
        simp only [List.append_assoc]
      have hstep : step s = applyInstr i s := step_eq_applyInstr (hwf i List.mem_cons_self) hhead hpc
      obtain ⟨u, hu⟩ := applyInstr_next i s
      obtain ⟨hupc, huprog⟩ := exec_frame ((applyInstr_running hr).symm.trans hu)
      rw [List.length_cons, run_succ _ (hstep.trans hu), applyAll_cons hu]
      refine ih (pre := pre ++ encode i) (fun j hj => hwf j (List.mem_cons_of_mem i hj)) ?_ ?_
      · rw [huprog, State.advance_prog, hhead]
        simp only [List.append_assoc]
      · rw [hupc, State.advance_pc, hpc, List.length_append, encode_length]
    · exact (run_ended _ hr).trans (applyAll_ended _ hr).symm

/-- Settles O48: the simulation, by induction on the list with the bytes before `PC` growing. -/
theorem encodedInstructionsRunInOrder : Obligations.EncodedInstructionsRunInOrder := by
  unfold Obligations.EncodedInstructionsRunInOrder
  exact fun is pre post s hwf hprog hpc => run_eq_applyAll hwf hprog hpc

/-! ## The run of an assembled listing -/

/-- A listing that assembles has a valid instruction in every row, and its program is their encodings (R72). -/
theorem assemble_ok {rows : List Row} {bytes : List Byte} (h : assemble rows = .ok bytes) :
    ∃ is, rows.map rowInstr = is.map .ok ∧ bytes = encodeAll is := by
  induction rows generalizing bytes with
  | nil => cases h; exact ⟨[], rfl, rfl⟩
  | cons r rows ih =>
    cases hr : rowInstr r with
    | error e => cases (assemble_cons_of_error rows hr).symm.trans h
    | ok i =>
      rw [assemble_cons_of_ok rows hr] at h
      cases hrest : assemble rows with
      | error e => rw [hrest] at h; cases h
      | ok rest =>
        rw [hrest] at h
        cases h
        obtain ⟨is, his, rfl⟩ := ih hrest
        exact ⟨i :: is, by rw [List.map_cons, List.map_cons, hr, his], rfl⟩

/-- Each instruction of a valid listing comes from a row the Range Validator accepted (R67). -/
theorem exists_checkInstr_of_mem {rows : List Row} {is : List Instr} (h : rows.map rowInstr = is.map .ok) {i : Instr}
    (hi : i ∈ is) : ∃ op v, checkInstr op v = .ok i := by
  have hmem : Except.ok i ∈ rows.map rowInstr := h ▸ List.mem_map_of_mem hi
  obtain ⟨r, -, hr⟩ := List.mem_map.mp hmem
  obtain ⟨op, -, hcheck⟩ := rowInstr_ok hr
  exact ⟨op, r.operand, hcheck⟩

/-- The declared range of `WRITE` (R65): the assembler names no cell from 4096 up. -/
theorem checkInstr_write_lt {op : Opcode} {v : Option Int} {a : Word} (h : checkInstr op v = .ok (.write a)) :
    a.toNat < 4096 := by
  obtain ⟨_, -, -, -, hi⟩ | ⟨-, -, hi⟩ | ⟨n, -, -, hn, hi⟩ | ⟨-, -, hi⟩ := checkInstr_ok h <;> cases hi
  rw [BitVec.toNat_ofNat]
  omega

theorem length_le_encodeAll_length (is : List Instr) : is.length ≤ (encodeAll is).length := by
  induction is with
  | nil => exact Nat.le_refl _
  | cons i is ih =>
    have hpos := i.length_pos
    rw [encodeAll, List.length_append, List.length_cons, encode_length]
    omega

/-- Applying a list while the machine runs on advances `PC` by the length of its encodings (R14, R87). -/
theorem applyAll_pc {is : List Instr} {s t : State} (h : applyAll is s = .next t) (ht : t.status = .running) :
    t.pc = s.pc + (encodeAll is).length := by
  induction is generalizing s with
  | nil => cases h; rfl
  | cons i is ih =>
    by_cases hr : s.status = .running
    · obtain ⟨u, hu⟩ := applyInstr_next i s
      obtain ⟨hupc, -⟩ := exec_frame ((applyInstr_running hr).symm.trans hu)
      rw [applyAll_cons hu] at h
      rw [ih h, hupc, State.advance_pc, encodeAll, List.length_append, encode_length, Nat.add_assoc]
    · rw [applyAll_ended _ hr] at h
      cases h
      exact absurd ht hr

theorem applyAll_prog {is : List Instr} {s t : State} (h : applyAll is s = .next t) : t.prog = s.prog := by
  refine applyAll_induction (P := fun u => u.prog = s.prog) (fun i _ u v hu huv => ?_) rfl h
  obtain rfl | hexec := applyInstr_cases huv
  · exact hu
  · exact (exec_frame hexec).2.trans hu

/-- Instructions applied in order raise no decode fault (R87, R90). -/
theorem applyAll_fault {is : List Instr} {s t : State} (h : applyAll is s = .next t) :
    t.fault = s.fault ∨ ∃ a, t.fault = some (.memoryOutOfRange a) := by
  refine applyAll_induction (P := fun u => u.fault = s.fault ∨ ∃ a, u.fault = some (.memoryOutOfRange a))
    (fun i _ u v hu huv => ?_) (.inl rfl) h
  obtain rfl | hexec := applyInstr_cases huv
  · exact hu
  · obtain ⟨_, -, rfl⟩ | ⟨-, -, rfl⟩ | ⟨-, -, rfl⟩ | ⟨_, -, -, rfl⟩ | ⟨a, -, -, rfl⟩ | ⟨-, rfl⟩ := exec_cases hexec
    · exact hu
    · exact hu
    · exact .inr ⟨_, rfl⟩
    · exact hu
    · exact .inr ⟨a, rfl⟩
    · exact hu

/-- The end of a run whose instructions are done: `HALTED`, or the fault that has ended it already (R84, R155). -/
def State.finish (t : State) : State := if t.status = .running then { t with status := .halted } else t

theorem State.finish_running {t : State} (h : t.status = .running) : t.finish = t.halt := if_pos h

theorem State.finish_ended {t : State} (h : t.status ≠ .running) : t.finish = t := if_neg h

/-- Turns beyond the last instruction: a machine still running at the end of the program halts in the first of them, and nothing
happens in the others (R84, log 5). -/
theorem run_atEnd {t : State} (k : Nat) (h : t.status = .running → t.prog.length ≤ t.pc) :
    Sys2Proof.core.run (k + 1) t = .next t.finish := by
  by_cases ht : t.status = .running
  · rw [State.finish_running ht, run_succ k (step_atEnd ht (h ht))]
    exact run_ended k (by simp)
  · rw [State.finish_ended ht]
    exact run_ended (k + 1) ht

/-- The whole run of the encodings of well-formed instructions: they are applied in order, and then the run ends (R85, R90). -/
theorem runProgram_encodeAll {is : List Instr} {t : State} (hwf : ∀ i ∈ is, i.wellFormed = true)
    (h : applyAll is (State.startRun (encodeAll is)) = .next t) :
    runProgram (encodeAll is) = .next t.finish := by
  obtain ⟨k, hk⟩ := Nat.exists_eq_add_of_le (length_le_encodeAll_length is)
  have hrun : Sys2Proof.core.run is.length (State.startRun (encodeAll is)) = .next t :=
    (run_eq_applyAll (pre := []) (post := []) hwf (by simp) rfl).trans h
  have hend (ht : t.status = .running) : t.prog.length ≤ t.pc := by
    rw [applyAll_pc h ht, applyAll_prog h, State.startRun_prog]
    exact Nat.le_add_left _ _
  rw [runProgram, hk, Nat.add_assoc, run_add _ hrun]
  exact run_atEnd k hend

/-- Settles O49: the listing's instructions are well formed and their encodings are the program, so the run refines applying them;
applying raises `MemoryOutOfRange` at most and writes cells below 4096 only. -/
theorem assembledListingRuns : Obligations.AssembledListingRuns := by
  unfold Obligations.AssembledListingRuns
  intro rows bytes h
  obtain ⟨is, his, rfl⟩ := assemble_ok h
  obtain ⟨t, ht⟩ := applyAll_next is (State.startRun (encodeAll is))
  have hwf (i : Instr) (hi : i ∈ is) : i.wellFormed = true := by
    obtain ⟨op, v, hcheck⟩ := exists_checkInstr_of_mem his hi
    exact checkInstr_wellFormed hcheck
  have hlow (a : Word) (ha : .write a ∈ is) : a.toNat < 4096 := by
    obtain ⟨op, v, hcheck⟩ := exists_checkInstr_of_mem his ha
    exact checkInstr_write_lt hcheck
  refine ⟨is, t, his, ht, runProgram_encodeAll hwf ht, applyAll_fault ht, fun x hx => ?_⟩
  have hother (a : Word) (ha : .write a ∈ is) : a.toNat ≠ x := by
    have := hlow a ha
    omega
  rw [applyAll_mem_read hother ht, State.startRun_mem_read]

end Sys2Proof.Machine
end

section
/-! The statements on canonical encodings (R68, R69), on words written out from the formats and on the mnemonics (R70). -/

namespace Sys2Proof

/-! ## Bytes that are a packed word -/

theorem leBytes_leWord (bs : List Byte) : leBytes bs.length (leWord bs) = bs := by
  induction bs with
  | nil => rfl
  | cons b bs ih =>
    have hb := b.isLt
    have hlow : BitVec.ofNat 8 (b.toNat + 2 ^ 8 * leWord bs) = b := by
      apply BitVec.eq_of_toNat_eq
      rw [BitVec.toNat_ofNat]
      omega
    have hhigh : (b.toNat + 2 ^ 8 * leWord bs) / 2 ^ 8 = leWord bs := by omega
    rw [List.length_cons, leBytes, leWord, hlow, hhigh, ih]

/-- Bytes whose first holds an opcode are that opcode packed with the bits above it (R50, R64). -/
theorem eq_leBytes_packWord {b : Byte} {bs : List Byte} {op : Opcode} (hop : low7 b = op.value) :
    b :: bs = leBytes (bs.length + 1) (packWord op (leWord (b :: bs) / 128)) := by
  have hlow : b.toNat % 128 = op.value.toNat := by rw [← low7_toNat, hop]
  have hpack : packWord op (leWord (b :: bs) / 128) = leWord (b :: bs) := by
    rw [packWord_eq, ← hlow, leWord]
    omega
  rw [hpack]
  exact (leBytes_leWord (b :: bs)).symm

/-- A byte with bit 7 clear is its opcode field (R51). -/
theorem eq_setWidth_of_low7 {b : Byte} {v : BitVec 7} (hop : low7 b = v) (hlt : b.toNat < 0x80) : b = v.setWidth 8 := by
  apply BitVec.eq_of_toNat_eq
  rw [BitVec.toNat_setWidth, ← hop, low7_toNat]
  omega

/-! ## The Decoder's answers on single encodings -/

/-- A third byte's bits 7:4 are ignored (R60). -/
theorem decode_write_mask {b0 : Byte} (b1 b2 : Byte) (hop : low7 b0 = 112) :
    decode [b0, b1, b2] 0 = decode [b0, b1, b2 &&& 0x0F] 0 := by
  have hmask : (b2 &&& 0x0F).toNat = b2.toNat % 2 ^ 4 := toNat_and_lowMask b2 (k := 4) (by decide)
  refine (decode_write_fields [] [] b1 b2 hop).trans (Eq.trans ?_ (decode_write_fields [] [] b1 (b2 &&& 0x0F) hop).symm)
  rw [hmask, Nat.mod_mod]

/-- A fifth byte's bits 7:6 are ignored (R60). -/
theorem decode_load_mask {b0 : Byte} (b1 b2 b3 b4 : Byte) (hop : low7 b0 = 57) :
    decode [b0, b1, b2, b3, b4] 0 = decode [b0, b1, b2, b3, b4 &&& 0x3F] 0 := by
  have hmask : (b4 &&& 0x3F).toNat = b4.toNat % 2 ^ 6 := toNat_and_lowMask b4 (k := 6) (by decide)
  refine (decode_load_fields [] [] b1 b2 b3 b4 hop).trans
    (Eq.trans ?_ (decode_load_fields [] [] b1 b2 b3 (b4 &&& 0x3F) hop).symm)
  rw [hmask, Nat.mod_mod]

/-! ## The mnemonics -/

/-- The mnemonic of an opcode, in upper case (R70). -/
def Opcode.mnemonic : Opcode → List Char
  | .load => ['L', 'O', 'A', 'D']
  | .read => ['R', 'E', 'A', 'D']
  | .write => ['W', 'R', 'I', 'T', 'E']
  | .bswap => ['B', 'S', 'W', 'A', 'P']

end Sys2Proof

namespace Sys2Proof.Machine

/-- The encodings from 4096 up that the Decoder accepts and the assembler never produces: bit 19 of the word is set (R56, R68). -/
theorem decode_high_write {a : Nat} (hlo : 4096 ≤ a) (hhi : a ≤ 8191) :
    (leBytes 3 (packWord .write a))[2]?.map (·.getLsbD 3) = some true ∧
      decode (leBytes 3 (packWord .write a)) 0 = .instr (.write (BitVec.ofNat 32 a)) 3 := by
  constructor
  · have hbit : (BitVec.ofNat 8 (packWord .write a >>> 16)).getLsbD 3 = true := by
      have hw : packWord .write a / 2 ^ 16 / 2 ^ 3 % 2 = 1 := by
        rw [packWord_write]
        omega
      rw [BitVec.getLsbD_ofNat, Nat.shiftRight_eq_div_pow, Nat.testBit_eq_decide_div_mod_eq, hw]
      rfl
    rw [leBytes_three]
    exact congrArg some hbit
  · have hwf : (Instr.write (BitVec.ofNat 32 a)).wellFormed = true := by
      simp only [Instr.wellFormed, writeOperandFits, BitVec.toNat_ofNat, decide_eq_true_eq]
      omega
    rw [← encode_write_ofNat (by omega), decode_encode_alone hwf, encode_length]
    rfl

/-- A byte below 2^4 whose bit 3 is clear is below 2^3. -/
theorem toNat_lt_of_bit3 {b : Byte} (hlt : b.toNat < 2 ^ 4) (hbit : b.getLsbD 3 = false) : b.toNat < 2 ^ 3 := by
  have hdiv : b.toNat / 2 ^ 3 % 2 ≠ 1 := by
    intro h
    rw [BitVec.getLsbD, Nat.testBit_eq_decide_div_mod_eq, h] at hbit
    cases hbit
  omega

/-- The Encoder produces every encoding of one instruction that is not in the table of non-canonical ones: the bits above the
opcode are an operand in the declared range (R68). -/
theorem exists_encodeChecked_of_canonical {bytes : List Byte} {i : Instr} (hd : decode bytes 0 = .instr i bytes.length)
    (hcan : ¬NonCanonical bytes) : ∃ op v, encodeChecked op v = .ok bytes := by
  obtain ⟨b, hb, ho, hlen, -⟩ := decode_instr hd
  have hop := opcodeOf_some ho
  rw [Nat.zero_add, Instr.length] at hlen
  generalize i.opcode = op at hop hlen
  cases op with
  | load =>
    match bytes, hlen, hb, hcan with
    | [b0, b1, b2, b3, b4], _, rfl, hcan =>
      have hlt : b4.toNat < 0x40 := Nat.not_le.mp hcan
      have hbound : leWord [b0, b1, b2, b3, b4] / 128 < 2 ^ 31 := by
        simp only [leWord]
        omega
      refine ⟨.load, _, (encodeChecked_of_checkInstr (checkInstr_load hbound)).trans ?_⟩
      rw [encode_load_ofNat hbound]
      exact congrArg _ (eq_leBytes_packWord hop).symm
  | read =>
    match bytes, hlen, hb, hcan with
    | [b0], _, rfl, hcan =>
      refine ⟨.read, none, encodeChecked_read.trans ?_⟩
      rw [eq_setWidth_of_low7 hop (Nat.not_le.mp hcan)]
      rfl
  | write =>
    match bytes, hlen, hb, hcan with
    | [b0, b1, b2], _, rfl, hcan =>
      obtain ⟨hlt, hbit⟩ := not_or.mp hcan
      have hlt : b2.toNat < 2 ^ 3 := toNat_lt_of_bit3 (Nat.not_le.mp hlt) (Bool.eq_false_of_not_eq_true hbit)
      have hbound : leWord [b0, b1, b2] / 128 < 4096 := by
        simp only [leWord]
        omega
      refine ⟨.write, _, (encodeChecked_of_checkInstr (checkInstr_write hbound)).trans ?_⟩
      rw [encode_write_ofNat (by omega)]
      exact congrArg _ (eq_leBytes_packWord hop).symm
  | bswap =>
    match bytes, hlen, hb, hcan with
    | [b0], _, rfl, hcan =>
      refine ⟨.bswap, none, encodeChecked_bswap.trans ?_⟩
      rw [eq_setWidth_of_low7 hop (Nat.not_le.mp hcan)]
      rfl

/-- No mnemonic is taken by an earlier comparison, so each names its own opcode and nothing else does. -/
theorem mnemonicOpcode_eq_some_iff (text : List Char) (op : Opcode) :
    mnemonicOpcode text = some op ↔ text.map Char.toUpper = op.mnemonic := by
  unfold mnemonicOpcode
  constructor
  · intro h
    dsimp only at h
    split_ifs at h <;> cases h <;> assumption
  · intro h
    rw [h]
    cases op <;> rfl

/-! ## The statements -/

/-- Settles O8: the packed word read back gives the operand, and the Decoder reads the same bytes at any place. -/
theorem decodeEncodeRoundTrip : Obligations.DecodeEncodeRoundTrip := by
  unfold Obligations.DecodeEncodeRoundTrip
  exact fun i pre post h => decode_encode pre post h

/-- Settles O13: what the Encoder produces is canonical, a canonical encoding is the opcode packed with an operand in the declared
range, and the rows of the table decode as it says. -/
theorem canonicalExactly : Obligations.CanonicalExactly := by
  unfold Obligations.CanonicalExactly
  refine ⟨fun bytes i hd => ⟨?_, exists_encodeChecked_of_canonical hd⟩, fun op v bytes => not_nonCanonical_of_encodeChecked,
    by decide, by decide, fun b0 b1 b2 b3 b4 => decode_load_mask b1 b2 b3 b4, fun b0 b1 b2 => decode_write_mask b1 b2,
    fun a hlo hhi => ?_⟩
  · rintro ⟨op, v, h⟩
    exact not_nonCanonical_of_encodeChecked h
  · have hpack : packWord .write a = 112 + 2 ^ 7 * a := packWord_eq .write a
    rw [← hpack]
    exact decode_high_write hlo hhi

/-- Settles O1: ten words, each evaluated. -/
theorem tableWordsDecode : Obligations.TableWordsDecode := by
  unfold Obligations.TableWordsDecode
  decide

/-- Settles O14: the mnemonic of each opcode, and the row's error where there is none. -/
theorem mnemonicsAnyCase : Obligations.MnemonicsAnyCase := by
  unfold Obligations.MnemonicsAnyCase
  refine ⟨fun text op => ?_, fun r h => encodeRow_of_error ?_⟩
  · rw [mnemonicOpcode_eq_some_iff]
    cases op <;> rfl
  · simp only [rowInstr, h]

end Sys2Proof.Machine
end
